-- ==== Sys2Proof/Word.lean ====
section
/-! DEFINITION. The value types of the FiSH codec block (00_scope.md rules R7 to R10): bytes, 32-bit words, sextets, byte
sequences and 8-byte Blocks. Everything is unsigned (R7). -/

namespace Sys2Proof

/-- `bits(8)` (R8). -/
abbrev Byte := BitVec 8

/-- `bits(32)`: a half of a Block, STATUS, ERR_POS, OUT_LEN (R9, R26, R27, R28). -/
abbrev Word := BitVec 32

/-- A 6-bit value, the index of one alphabet character (R12). -/
abbrev Sextet := BitVec 6

/-- A finite list of bytes, index 0 first (R8). -/
abbrev ByteSeq := List Byte

/-- "A fixed-size unit of exactly 8 bytes", what the cipher takes and returns (R12, R140). -/
abbrev Block := Vector Byte 8

end Sys2Proof
end

