-- ==== Sys2Proof/Syntax.lean ====
section
/-! DEFINITION. The commands of the block, one constructor per row of spec/opcode_table.json (30_encoding.md rule R61). -/

namespace Sys2Proof

/-- A command of the block. It names no register and carries no operand: its operands are the byte sequences that ISSUE
latched (10_state.md rules R20, R35). -/
inductive Instr where
  /-- 0x01, zero_padder (R101). -/
  | pad
  /-- 0x02, one 8-byte Block to one Group (R111). -/
  | encb
  /-- 0x03, one 12-character Group to one Block (R121). -/
  | decb
  /-- 0x04, every Block to its Group (R115). -/
  | enc
  /-- 0x05, every Group to its Block (R131). -/
  | dec
  /-- 0x06, `CIPHER.encBlk` on every Block (R141). -/
  | ecbe
  /-- 0x07, `CIPHER.decBlk` on every Block (R151). -/
  | ecbd
  /-- Any of the 249 other bytes, kept as it was issued (R62, R63). -/
  | illegalCommand (b : Byte)
deriving DecidableEq, Repr

end Sys2Proof
end

