-- ==== Sys2Proof/WellFormed.lean ====
section
/-! DEFINITION. Which commands some command byte stands for (30_encoding.md rule R64). -/

namespace Sys2Proof

/-- The 249 bytes that select no command (R62, R63, R64). -/
def isIllegalByte (b : Byte) : Bool := b == 0x00#8 || 0x07#8 < b

/-- The seven commands are well formed as they stand. An illegal command is well formed when its byte is one of the 249: R64
gives 0x01 to 0x07 to the seven. -/
def Instr.wf : Instr → Bool
  | .pad => true
  | .encb => true
  | .decb => true
  | .enc => true
  | .dec => true
  | .ecbe => true
  | .ecbd => true
  | .illegalCommand b => isIllegalByte b

end Sys2Proof
end

