-- ==== Sys2Proof/Decode.lean ====
section
/-! DEFINITION. Decoding and encoding of the command byte (30_encoding.md rules R60 to R66). -/

namespace Sys2Proof

/-- `OPC`, bits 3:0 of the command byte (R60). -/
def opcOf (b : Byte) : BitVec 4 := b.extractLsb' 0 4

/-- `RSV`, bits 7:4 of the command byte; 0 in every command (R60). -/
def rsvOf (b : Byte) : BitVec 4 := b.extractLsb' 4 4

/-- The command a byte selects, in the shape of R66: the reserved field first, then the operation code, every other value an
illegal command (R62, R63). -/
def decodeByte (b : Byte) : Instr :=
  if rsvOf b ≠ 0#4 then .illegalCommand b
  else
    match (opcOf b).toNat with
    | 0x1 => .pad
    | 0x2 => .encb
    | 0x3 => .decb
    | 0x4 => .enc
    | 0x5 => .dec
    | 0x6 => .ecbe
    | 0x7 => .ecbd
    | _ => .illegalCommand b

/-- Why a byte sequence holds no command. Every byte has an outcome (R64), so only a missing byte is left. -/
inductive DecodeError where
  /-- The sequence is empty: a command is exactly one command byte (R60, R65). -/
  | noCommandByte
deriving DecidableEq, Repr

/-- "A decoder reads exactly one byte per command" (R65): the command and the bytes after it. -/
def decode : ByteSeq → Except DecodeError (Instr × ByteSeq)
  | [] => .error .noCommandByte
  | b :: rest => .ok (decodeByte b, rest)

/-- The command byte of a command (the opcode map, R61). -/
def encodeByte : Instr → Byte
  | .pad => 0x01#8
  | .encb => 0x02#8
  | .decb => 0x03#8
  | .enc => 0x04#8
  | .dec => 0x05#8
  | .ecbe => 0x06#8
  | .ecbd => 0x07#8
  | .illegalCommand b => b

/-- The bytes of a command: one (R65). -/
def encode (i : Instr) : ByteSeq := [encodeByte i]

/-- The bytes of an instruction given as one number, its first byte in bits 7:0; at least the one byte every command has, so
that bits a shorter `nbits` leaves out are 0. -/
def tableBytes (nbits w : Nat) : ByteSeq :=
  (List.range (max 1 ((nbits + 7) / 8))).map fun i => BitVec.ofNat 8 ((w % 2 ^ nbits) / 2 ^ (8 * i))

/-- The one byte of a command given as a number, the bits above `nbits` 0. -/
def tableByte (nbits w : Nat) : Byte := BitVec.ofNat 8 (w % 2 ^ nbits)

/-- The command the decoder reads from those bytes; none when bytes are left over, since a command is one byte long (R65). -/
def decodeTableWord (nbits w : Nat) : Option Instr :=
  match decode (tableBytes nbits w) with
  | .ok (i, []) => some i
  | .ok (_, _ :: _) => none
  | .error _ => none

end Sys2Proof
end

