-- ==== Sys2Proof/Config.lean ====
section
/-! DEFINITION. The fixed and the open parameters of the block (00_scope.md rule R6), and the free values. An opaque constant
has no body: every claim holds whatever its value. -/

namespace Sys2Proof

/-- "A fixed-size unit of exactly 8 bytes" (R6). -/
abbrev Config.blockBytes : Nat := 8
/-- Characters of a Group (R6). -/
abbrev Config.groupChars : Nat := 12
/-- Characters of a half of a Group (R6). -/
abbrev Config.halfChars : Nat := 6
/-- Entries of the alphabet ROM (R6). -/
abbrev Config.alphabetSize : Nat := 64
/-- The zero padder's block size, fixed at 8 (R6, R103). -/
abbrev Config.padBlock : Nat := 8

/-- The external block cipher (R140): three pure functions, `encBlk` and `decBlk` consulted only when `keyOk` accepts the key.
That they are functions is the assumption `CipherPure` (R142(a)). -/
structure Cipher where
  keyOk : ByteSeq → Bool
  encBlk : ByteSeq → Block → Block
  decBlk : ByteSeq → Block → Block
deriving Inhabited

/-- `CipherInverse` (R142(b)), which a claim must name and the model never uses. -/
def Cipher.Inverse (c : Cipher) : Prop :=
  ∀ (k : ByteSeq) (b : Block), c.keyOk k = true → c.decBlk k (c.encBlk k b) = b

/-- `CIPHER`, OPEN (R6, R140). DESIGN CHOICE, log 6. -/
opaque Config.cipher : Cipher

/-- The platform's choice of `MAX_LEN`, before the bound of R6 is applied. DESIGN CHOICE, log 5. -/
opaque Config.maxLenChoice : Option Nat

/-- `MAX_LEN`, OPEN: a natural number at most 2^32 - 1, or unbounded (`none`) (R6). Every such value is some choice's. -/
def Config.maxLen : Option Nat := Config.maxLenChoice.map fun n => min n (2 ^ 32 - 1)

/-- What a platform may memory-map: "the registers of 10_state.md rules R26 to R28 and the ports of rules R35 to R37" (R50). -/
inductive MappedReg where
  /-- STATUS (R26). -/
  | status
  /-- ERR_POS (R27). -/
  | errPos
  /-- OUT_LEN (R28). -/
  | outLen
  /-- DOUT (R28). -/
  | dout
  /-- The host-facing command port (R35). -/
  | issuePort
  /-- The host-facing read port (R36). -/
  | readPort
  /-- The cipher-facing port (R37). -/
  | cipherPort
deriving DecidableEq, Repr

/-- `REG_MAP`, OPEN (R6, R50), the offset of each, none where the platform maps it nowhere: "No rule of this spec depends on `REG_MAP`", and nothing in the model reads it. DESIGN CHOICE, log 7. -/
opaque Config.regMap : MappedReg → Option Nat

/-- FREE VALUE: the CODE bits of the n-th STATUS read made while BUSY = 1 (R205: "any value"). DESIGN CHOICE, log 4. -/
opaque Config.busyCode : Nat → BitVec 4

/-- FREE VALUE: what the 32-bit ERR_POS holds for an index it cannot represent (possible only with `MAX_LEN` unbounded; R6, R27
state no value). DESIGN CHOICE, log 8. -/
opaque Config.wideErrPos : Nat → Word

/-- FREE VALUE: what the 32-bit OUT_LEN reads for a length it cannot represent (R6, R28 state no value). DESIGN CHOICE, log 8. -/
opaque Config.wideOutLen : Nat → Word

end Sys2Proof
end

