-- ==== Sys2Proof/Machine/State.lean ====
section
/-! DEFINITION. The state of one block instance and of its host, as plain data, and the state after reset (10_state.md rules R23,
R34; 20_memory.md rule R40; buffers are lists: DEDUCED, log 11; one instance: DESIGN CHOICE, log 14; no time: DESIGN CHOICE, log 19). -/

namespace Sys2Proof.Machine

/-- The result registers the host may read only while BUSY = 0 (R36, R39). -/
inductive ResultReg where
  | errPos | outLen | dout
deriving DecidableEq, Repr

/-- The reasons a run stops with a fault. Both are broken host duties. -/
inductive Fault where
  /-- Raised by a host read of ERR_POS, OUT_LEN or DOUT while BUSY = 1: "A model faults on such a read and gives it no value"
  (R205). Safe: the model stops where the hardware returns some value. -/
  | readWhileBusy (r : ResultReg)
  /-- Raised by a host read of DOUT at an index `>= OUT_LEN`: it "returns no value, and a model faults on it" (R28). Safe. -/
  | doutIndexOutOfRange (i : Nat)
deriving DecidableEq, Repr

/-- The reasons a run is refused: the model gives it no meaning (R207). -/
inductive Refusal where
  /-- Raised by an arm of `exec` whose instruction has no meaning yet. No arm of this model raises it. Safe. -/
  | notModelled (mnemonic : String)
  /-- Raised by an ISSUE whose key, input or output would be longer than `MAX_LEN` (R33, R207(a)). Safe. -/
  | overCapacity
  /-- Raised by an operand `@`, of an ISSUE or of a framing operation, when the previous command did not complete with CODE = 0, or there is none (R72, R207(b)). Safe. -/
  | noPreviousOutput
deriving DecidableEq, Repr

/-- An operand of a command line (R72): bytes, or `@`, the DOUT of the previous line's command (in a pseudo-instruction: DESIGN CHOICE, log 20). -/
inductive Operand where
  | bytes (b : ByteSeq)
  | prev
deriving DecidableEq, Repr

/-- One pending move of the host (R22(a)), or of the reset input (R200). -/
inductive HostMove where
  /-- ISSUE(cmd, key, din) (R35). -/
  | issue (cmd : Byte) (key din : Operand)
  /-- The host waiting for BUSY = 0 (R53, R204; its polls are not recorded: DESIGN CHOICE, log 15). -/
  | waitIdle
  /-- A read of STATUS, allowed at any time (R36). -/
  | readStatus
  /-- A read of ERR_POS (R36). -/
  | readErrPos
  /-- A read of OUT_LEN (R36). -/
  | readOutLen
  /-- A read of DOUT[i] (R28, R36). -/
  | readDout (i : Nat)
  /-- Reset asserted (R200). -/
  | reset
  /-- ENCRYPT(key, m), first step: issue PAD (R73, R162). -/
  | encrypt (key m : Operand)
  /-- ENCRYPT, second step: issue ECBE on the padded message (R162). -/
  | encryptEcb (key : Operand)
  /-- ENCRYPT, third step: test CODE, issue ENC on the ciphertext (R162). -/
  | encryptEnc
  /-- ENCRYPT, last step: prepend the tag (R162). -/
  | encryptTag
  /-- DECRYPT(key, t), first step: test the tag, issue DEC on the body (R73, R164). -/
  | decrypt (key t : Operand)
  /-- DECRYPT, second step: test CODE, issue ECBD (R164). -/
  | decryptEcb (key : Operand)
  /-- DECRYPT, last step: test CODE, trim (R164, R165). -/
  | decryptTrim
  /-- ISENC(t), which issues no command (R73, R163). -/
  | isEnc (t : Operand)
deriving DecidableEq, Repr

/-- What one read returned to the host (R36). -/
inductive HostRead where
  | status (w : Word)
  | errPos (w : Word)
  | outLen (w : Word)
  | dout (i : Nat) (b : Byte)
deriving DecidableEq, Repr

/-- What a framing operation returns (R162 to R164, R166). -/
inductive HostResult where
  | bytes (b : ByteSeq)
  | isEncrypted (b : Bool)
  | malformedCiphertext
  | cipherKeyError
deriving DecidableEq, Repr

/-- An event of a run: a COMPLETE step's `(CODE, ERR_POS, DOUT)` triple (R210), or a reset (R200). -/
inductive RunEvent where
  | completed (code : BitVec 4) (errPos : Word) (dout : ByteSeq)
  | wasReset
deriving DecidableEq, Repr

/-- The state: the seven fields of R23's record, then the model's own fields for the host and the observation of the run
(R22(a), R188, R210; DESIGN CHOICE, logs 1, 3 and 4). -/
structure State where
  /-- A command is in flight (R25). -/
  busy : Bool
  /-- The latched command byte (R24). -/
  cmdL : Byte
  /-- The latched key (R24). -/
  keyL : ByteSeq
  /-- The latched input buffer (R24). -/
  dinL : ByteSeq
  /-- Outcome of the last completed command (R26, R180). -/
  code : BitVec 4
  /-- Error position of the last completed command (R27). -/
  errPos : Word
  /-- Output of the last completed command (R28). -/
  dout : ByteSeq
  /-- The host's pending moves, the next one first. -/
  hostQ : List HostMove
  /-- The completions and resets of the run, newest first (R188, R210). -/
  history : List RunEvent
  /-- What the host has read, newest first. -/
  reads : List HostRead
  /-- What the host's framing operations have returned, newest first (R210). -/
  results : List HostResult
  /-- Index of the next free value (R205; DESIGN CHOICE, log 4). -/
  freeCount : Nat
deriving DecidableEq, Repr

/-- The machine right after reset (R34, R201), with no host move pending and nothing observed (DESIGN CHOICE, logs 3 and 4). -/
def State.reset : State where
  busy := false
  cmdL := 0x00#8
  keyL := []
  dinL := []
  code := 0#4
  errPos := 0#32
  dout := []
  hostQ := []
  history := []
  reads := []
  results := []
  freeCount := 0

end Sys2Proof.Machine
end

