-- ==== Sys2Proof/Machine/Flags.lean ====
section
/-! DEFINITION. The outcome codes, ERR_POS, OUT_LEN and the STATUS word (10_state.md rules R26 to R28; 60_exceptions.md rules R180,
R185). The block has no other flag (R32). -/

namespace Sys2Proof.Machine

/-- CODE 0 (R180). -/
def codeOk : BitVec 4 := 0#4
/-- CODE 1 (R180). -/
def codeInvalidInputLength : BitVec 4 := 1#4
/-- CODE 2 (R180). -/
def codeInvalidEncodingLength : BitVec 4 := 2#4
/-- CODE 3 (R180). -/
def codeInvalidCharacter : BitVec 4 := 3#4
/-- CODE 4 (R180). -/
def codeCipherKeyError : BitVec 4 := 4#4
/-- CODE 5 (R180). -/
def codeIllegalCommand : BitVec 4 := 5#4

/-- The 32-bit ERR_POS for a byte index (R27): the index, and a free value where 32 bits cannot hold it (DESIGN CHOICE, log 8). -/
def errPosWord (pos : Nat) : Word :=
  if pos < 2 ^ 32 then BitVec.ofNat 32 pos else Config.wideErrPos pos

/-- The 32-bit OUT_LEN for an output length (R28): the length, and a free value where 32 bits cannot hold it (DESIGN CHOICE, log 8). -/
def outLenWord (n : Nat) : Word :=
  if n < 2 ^ 32 then BitVec.ofNat 32 n else Config.wideOutLen n

/-- `zext_32(BUSY) << 8 | zext_32(CODE)`; the reserved bits read 0 (R26). -/
def statusWord (busy : Bool) (code : BitVec 4) : Word :=
  (BitVec.ofBool busy).setWidth 32 <<< 8 ||| code.setWidth 32

/-- The STATUS word of a state (R26). -/
def State.status (s : State) : Word := statusWord s.busy s.code

/-- OUT_LEN, the register `|DOUT|` (R28). -/
def State.outLen (s : State) : Word := outLenWord s.dout.length

/-- What a host read of STATUS returns (R205): STATUS, but with a free value in bits 3:0 while BUSY = 1 (DESIGN CHOICE, log 4). -/
def State.statusRead (s : State) : Word :=
  if s.busy then statusWord true (Config.busyCode s.freeCount) else s.status

end Sys2Proof.Machine
end

