-- ==== Sys2Proof/Machine/Operands.lean ====
section
/-! DEFINITION. The data formats: byte order, access to the latched input, the alphabet ROM and its inverse, and the codec's two
per-block datapaths (00_scope.md R9 to R11; 10_state.md R29, R30; 20_memory.md R40 to R47; 30_encoding.md R67 to R70;
41_codec.md R110, R120). -/

namespace Sys2Proof.Machine

/-- `BE32(b0, b1, b2, b3)`: the first byte is bits 31:24 (R10). -/
def be32 (b0 b1 b2 b3 : Byte) : Word := b0 ++ b1 ++ b2 ++ b3

/-- `BYTES_BE32(v)` (R10). -/
def bytesBE32 (v : Word) : ByteSeq :=
  [v.extractLsb' 24 8, v.extractLsb' 16 8, v.extractLsb' 8 8, v.extractLsb' 0 8]

/-- `MemRead(addr, 1)` on an input buffer (R11). It is only applied in range, so what it gives elsewhere is never used (DEDUCED, log 13). -/
def memRead1 (d : ByteSeq) (a : Nat) : Byte := d.getD a 0#8

/-- `MemRead(addr, 4)`: big-endian (R11, R41). -/
def memRead4 (d : ByteSeq) (a : Nat) : Word :=
  be32 (memRead1 d a) (memRead1 d (a + 1)) (memRead1 d (a + 2)) (memRead1 d (a + 3))

/-- The Block `d[a .. a+8)` (R46). -/
def blockAt (d : ByteSeq) (a : Nat) : Block :=
  #v[memRead1 d a, memRead1 d (a + 1), memRead1 d (a + 2), memRead1 d (a + 3),
     memRead1 d (a + 4), memRead1 d (a + 5), memRead1 d (a + 6), memRead1 d (a + 7)]

/-- The alphabet ROM, entries 0 to 63 in the four columns of R29's table (its byte codes are US-ASCII: PRESUMED, log 17). -/
def alphaRom : ByteSeq :=
  [0x2E#8, 0x2F#8, 0x30#8, 0x31#8, 0x32#8, 0x33#8, 0x34#8, 0x35#8, 0x36#8, 0x37#8, 0x38#8, 0x39#8, 0x61#8, 0x62#8, 0x63#8, 0x64#8]
  ++ [0x65#8, 0x66#8, 0x67#8, 0x68#8, 0x69#8, 0x6A#8, 0x6B#8, 0x6C#8, 0x6D#8, 0x6E#8, 0x6F#8, 0x70#8, 0x71#8, 0x72#8, 0x73#8, 0x74#8]
  ++ [0x75#8, 0x76#8, 0x77#8, 0x78#8, 0x79#8, 0x7A#8, 0x41#8, 0x42#8, 0x43#8, 0x44#8, 0x45#8, 0x46#8, 0x47#8, 0x48#8, 0x49#8, 0x4A#8]
  ++ [0x4B#8, 0x4C#8, 0x4D#8, 0x4E#8, 0x4F#8, 0x50#8, 0x51#8, 0x52#8, 0x53#8, 0x54#8, 0x55#8, 0x56#8, 0x57#8, 0x58#8, 0x59#8, 0x5A#8]

/-- `ALPHA[i]` (R29). A sextet is always an index of the ROM. -/
def alpha (i : Sextet) : Byte := alphaRom.getD i.toNat 0#8

/-- `IDX(c)`, the inverse of the ROM, undefined (`none`) for the other 192 bytes (R30). -/
def idx (c : Byte) : Option Sextet :=
  if 0x2E#8 ≤ c ∧ c ≤ 0x39#8 then some ((c - 0x2E#8).setWidth 6)
  else if 0x61#8 ≤ c ∧ c ≤ 0x7A#8 then some ((c - 0x55#8).setWidth 6)
  else if 0x41#8 ≤ c ∧ c ≤ 0x5A#8 then some ((c - 0x1B#8).setWidth 6)
  else none

/-- A byte where IDX is defined, an alphabet byte (R30). -/
def isAlpha (c : Byte) : Bool := (idx c).isSome

/-- "repeat n times: emit `ALPHA[v & 0x3F]`; `v >>= 6`" (R110): the least significant sextet first. -/
def emitSextets : Nat → Word → ByteSeq
  | 0, _ => []
  | n + 1, v => alpha ((v &&& 0x3F#32).setWidth 6) :: emitSextets n (v >>> 6)

/-- ENC_BLOCK at index `a` of the input (R110): R's six characters, then L's. -/
def encBlock (d : ByteSeq) (a : Nat) : ByteSeq :=
  let l := memRead4 d a
  let r := memRead4 d (a + 4)
  emitSextets Config.halfChars r ++ emitSextets Config.halfChars l

/-- The inner loop of DEC_GROUP (R120): `n` characters from position `p` of the half that starts at `a`, ORed into `v` modulo
2^32. An error is the index of the first byte outside the alphabet. -/
def accumHalf (d : ByteSeq) (a : Nat) : (n p : Nat) → Word → Except Nat Word
  | 0, _, v => .ok v
  | n + 1, p, v =>
    match idx (memRead1 d (a + p)) with
    | none => .error (a + p)
    | some i => accumHalf d a n (p + 1) (v ||| i.setWidth 32 <<< (6 * p))

/-- DEC_GROUP at index `a` of the input (R120): R from the first half, L from the second, each from a zero start (R123); the
output is L's bytes, then R's (R43). -/
def decGroup (d : ByteSeq) (a : Nat) : Except Nat ByteSeq :=
  match accumHalf d a Config.halfChars 0 0#32 with
  | .error p => .error p
  | .ok r =>
    match accumHalf d (a + Config.halfChars) Config.halfChars 0 0#32 with
    | .error p => .error p
    | .ok l => .ok (bytesBE32 l ++ bytesBE32 r)

/-- A canonical Group: alphabet bytes whose 6th and 12th have index at most 3 (R124). -/
def isCanonical (g : ByteSeq) : Bool :=
  g.length == Config.groupChars && g.all isAlpha
    && (idx (memRead1 g 5)).any (fun i => decide (i ≤ 3#6)) && (idx (memRead1 g 11)).any (fun i => decide (i ≤ 3#6))

/-- The output of a loop over Blocks `0 .. n-1` in ascending order, each appended to OBUF (R11, R118). -/
def forBlocks (n : Nat) (f : Nat → ByteSeq) : ByteSeq := (List.range n).flatMap f

/-- A loop over the listed Groups that stops at the first one that fails; nothing is then kept (R118, R131, R48). -/
def forGroups (f : Nat → Except Nat ByteSeq) : List Nat → Except Nat ByteSeq
  | [] => .ok []
  | j :: js =>
    match f j with
    | .error p => .error p
    | .ok out =>
      match forGroups f js with
      | .error p => .error p
      | .ok rest => .ok (out ++ rest)

end Sys2Proof.Machine
end

