-- ==== Sys2Proof/Machine/Ops.lean ====
section
/-! DEFINITION. The shared operations on the state: how a command returns or raises, the COMPLETE step that makes its outcome
visible (this block's one kind of exception entry, R184; there is nothing to return from, R186), reset, and the latch the next
command is read from (00_scope.md R11; 10_state.md R24, R33, R38; 60_exceptions.md R184 to R186; 70_reset_and_hazards.md R200). -/

namespace Sys2Proof.Machine

/-- The triple `(code, pos, out)` a command returns (R66). -/
structure Result where
  code : BitVec 4
  pos : Nat
  out : ByteSeq
deriving DecidableEq, Repr

/-- `return (0, 0, OBUF)` (R101 to R151). -/
def Result.ok (out : ByteSeq) : Result := ⟨codeOk, 0, out⟩

/-- `raise E(pos)`: nothing written to OBUF becomes visible (R11, R184). -/
def Result.raise (code : BitVec 4) (pos : Nat) : Result := ⟨code, pos, []⟩

/-- What COMPLETE puts into DOUT: `out if code = 0 else []` (R38, R48). -/
def Result.visible (r : Result) : ByteSeq := if r.code = codeOk then r.out else []

/-- COMPLETE (R38): CODE, ERR_POS and DOUT become visible together and BUSY falls, whether the command succeeds or raises (R184).
The latches stay. The model's history records the triple (R188, R210). -/
def State.complete (s : State) (r : Result) : State :=
  { s with
    code := r.code
    errPos := errPosWord r.pos
    dout := r.visible
    busy := false
    history := .completed r.code (errPosWord r.pos) r.visible :: s.history }

/-- Reset (R200): every field of the block's record takes its value of R34 and a command in flight is abandoned. The host's own
fields are no part of that record (DESIGN CHOICE, log 10); the history records that a reset came. -/
def State.resetBlock (s : State) : State :=
  { s with
    busy := State.reset.busy
    cmdL := State.reset.cmdL
    keyL := State.reset.keyL
    dinL := State.reset.dinL
    code := State.reset.code
    errPos := State.reset.errPos
    dout := State.reset.dout
    history := .wasReset :: s.history }

/-- ISSUE's effect on the latches (R35); CODE, ERR_POS and DOUT are left unchanged. -/
def State.latch (s : State) (cmd : Byte) (key din : ByteSeq) : State :=
  { s with cmdL := cmd, keyL := key, dinL := din, busy := true }

/-- The same state with another queue of host moves. -/
def State.withQ (s : State) (q : List HostMove) : State := { s with hostQ := q }

/-- A STATUS read has used one free value, if BUSY = 1 (R205; DESIGN CHOICE, log 4). -/
def State.useFree (s : State) : State := { s with freeCount := if s.busy then s.freeCount + 1 else s.freeCount }

/-- A command byte latched and in flight, the host with nothing to do first (R24, R25; DESIGN CHOICE, log 2). -/
def State.placeCommand (s : State) (b : Byte) : State := { s with cmdL := b, busy := true, hostQ := [] }

/-- The command in flight: "The command byte is taken from the ISSUE transaction, not from memory" (R55, R60). -/
def State.fetch (s : State) : Instr := decodeByte s.cmdL

/-- A byte sequence that a buffer of capacity `cap` holds (R33); `none` is unbounded. -/
def fitsIn (cap : Option Nat) (l : ByteSeq) : Bool :=
  match cap with
  | none => true
  | some m => decide (l.length ≤ m)

/-- A byte sequence no longer than `MAX_LEN` (R6, R33). -/
def fits (l : ByteSeq) : Bool := fitsIn Config.maxLen l

end Sys2Proof.Machine
end

