-- ==== Sys2Proof/Machine/CodecDecoder.lean ====
section
/-! DEFINITION. custom_codec_decoder: DECB and DEC, strict (41_codec.md rules R120 to R132). -/

namespace Sys2Proof.Machine

/-- What a decode of the Groups answers: its output, or InvalidCharacter at the failing index of the whole input (R185). -/
def decodeResult : Except Nat ByteSeq → Result
  | .ok out => .ok out
  | .error p => .raise codeInvalidCharacter p

/-- `DECB_CMD(din)` (R121): exactly one Group, else InvalidEncodingLength before any character is looked at (R182). -/
def decbCmd (din : ByteSeq) : Result :=
  if din.length ≠ Config.groupChars then .raise codeInvalidEncodingLength 0 else decodeResult (decGroup din 0)

/-- `DEC_CMD(din)` (R131): the length first, then every Group in ascending order. -/
def decCmd (din : ByteSeq) : Result :=
  if din.length % Config.groupChars ≠ 0 then .raise codeInvalidEncodingLength 0
  else
    decodeResult
      (forGroups (fun j => decGroup din (Config.groupChars * j)) (List.range (din.length / Config.groupChars)))

/-- DECB, 0x03 (R121). -/
def execDecb (s : State) : Host.Outcome State Fault Refusal := .next (s.complete (decbCmd s.dinL))

/-- DEC, 0x05 (R131). -/
def execDec (s : State) : Host.Outcome State Fault Refusal := .next (s.complete (decCmd s.dinL))

end Sys2Proof.Machine
end

