-- ==== Sys2Proof/Machine/CodecEncoder.lean ====
section
/-! DEFINITION. custom_codec_encoder: ENCB and ENC (41_codec.md rules R110 to R118). -/

namespace Sys2Proof.Machine

/-- `ENCB_CMD(din)` (R111): exactly one Block, else InvalidInputLength. -/
def encbCmd (din : ByteSeq) : Result :=
  if din.length ≠ Config.blockBytes then .raise codeInvalidInputLength 0 else .ok (encBlock din 0)

/-- `ENC_CMD(din)` (R115): every Block, in ascending order. -/
def encCmd (din : ByteSeq) : Result :=
  if din.length % Config.blockBytes ≠ 0 then .raise codeInvalidInputLength 0
  else .ok (forBlocks (din.length / Config.blockBytes) fun j => encBlock din (Config.blockBytes * j))

/-- ENCB, 0x02 (R111). -/
def execEncb (s : State) : Host.Outcome State Fault Refusal := .next (s.complete (encbCmd s.dinL))

/-- ENC, 0x04 (R115). -/
def execEnc (s : State) : Host.Outcome State Fault Refusal := .next (s.complete (encCmd s.dinL))

end Sys2Proof.Machine
end

