-- ==== Sys2Proof/Machine/EcbWrapper.lean ====
section
/-! DEFINITION. ecb_block_cipher_wrapper: ECBE and ECBD over the external cipher (42_ecb_wrapper.md rules R140 to R152). -/

namespace Sys2Proof.Machine

/-- The shape ECBE and ECBD share: the length check, then one key check even for no Blocks (R144, R182), then each Block on its own
(R145): no chaining, no IV. -/
def ecbCmd (keyOk : Bool) (f : Block → Block) (din : ByteSeq) : Result :=
  if din.length % Config.blockBytes ≠ 0 then .raise codeInvalidInputLength 0
  else if keyOk = false then .raise codeCipherKeyError 0
  else
    .ok (forBlocks (din.length / Config.blockBytes) fun j => (f (blockAt din (Config.blockBytes * j))).toList)

/-- `ECBE_CMD(key, din)` (R141): the key reaches the cipher exactly as latched (R146). -/
def ecbeCmd (c : Cipher) (key din : ByteSeq) : Result := ecbCmd (c.keyOk key) (c.encBlk key) din

/-- `ECBD_CMD(key, din)` (R151). -/
def ecbdCmd (c : Cipher) (key din : ByteSeq) : Result := ecbCmd (c.keyOk key) (c.decBlk key) din

/-- ECBE, 0x06 (R141). -/
def execEcbe (s : State) : Host.Outcome State Fault Refusal :=
  .next (s.complete (ecbeCmd Config.cipher s.keyL s.dinL))

/-- ECBD, 0x07 (R151). -/
def execEcbd (s : State) : Host.Outcome State Fault Refusal :=
  .next (s.complete (ecbdCmd Config.cipher s.keyL s.dinL))

end Sys2Proof.Machine
end

