-- ==== Sys2Proof/Machine/Illegal.lean ====
section
/-! DEFINITION. The reserved command bytes (30_encoding.md rules R62 to R64). -/

namespace Sys2Proof.Machine

/-- `return (5, 0, [])` (R66): neither latch is read and the cipher is not called (R62). -/
def illegalCmd : Result := .raise codeIllegalCommand 0

/-- Any of the 249 bytes that select no command, whatever its OPC (R62, R63): it completes with IllegalCommand. -/
def execIllegalCommand (_b : Byte) (s : State) : Host.Outcome State Fault Refusal := .next (s.complete illegalCmd)

end Sys2Proof.Machine
end

