-- ==== Sys2Proof/Machine/ZeroPadder.lean ====
section
/-! DEFINITION. zero_padder: PAD (40_zero_padder.md rules R100 to R104). -/

namespace Sys2Proof.Machine

/-- `PAD8(d)`: the shortest extension of `d` by zero bytes to a multiple of 8 (R100). -/
def pad8 (d : ByteSeq) : ByteSeq :=
  let r := d.length % Config.padBlock
  if r = 0 then d else d ++ List.replicate (Config.padBlock - r) 0x00#8

/-- `PAD_CMD(din)` (R101): always OK. -/
def padCmd (din : ByteSeq) : Result := .ok (pad8 din)

/-- PAD, 0x01 (R101): the key is never read. -/
def execPad (s : State) : Host.Outcome State Fault Refusal := .next (s.complete (padCmd s.dinL))

end Sys2Proof.Machine
end

