-- ==== Sys2Proof/Machine/Dispatch.lean ====
section
/-! DEFINITION. COMPLETE, command by command (10_state.md rule R38; 30_encoding.md rule R66). -/

namespace Sys2Proof.Machine

def exec (i : Instr) (s : State) : Host.Outcome State Fault Refusal :=
  match i with
  | .pad => Sys2Proof.Machine.execPad s
  | .encb => Sys2Proof.Machine.execEncb s
  | .decb => Sys2Proof.Machine.execDecb s
  | .enc => Sys2Proof.Machine.execEnc s
  | .dec => Sys2Proof.Machine.execDec s
  | .ecbe => Sys2Proof.Machine.execEcbe s
  | .ecbd => Sys2Proof.Machine.execEcbd s
  | .illegalCommand b => Sys2Proof.Machine.execIllegalCommand b s

end Sys2Proof.Machine
end

