-- ==== Sys2Proof/Machine/Run.lean ====
section
/-! DEFINITION. `RUN(cmd, key, din)`, the pure function behind COMPLETE (10_state.md rule R38; 30_encoding.md rule R66), for any
cipher. -/

namespace Sys2Proof.Machine

/-- The outcome of a command on its latched operands (R66). -/
def runInstr (c : Cipher) (i : Instr) (key din : ByteSeq) : Result :=
  match i with
  | .pad => padCmd din
  | .encb => encbCmd din
  | .decb => decbCmd din
  | .enc => encCmd din
  | .dec => decCmd din
  | .ecbe => ecbeCmd c key din
  | .ecbd => ecbdCmd c key din
  | .illegalCommand _ => illegalCmd

/-- `RUN(cmd, key, din)` (R38, R66): it depends only on its three arguments and the cipher. -/
def run (c : Cipher) (cmd : Byte) (key din : ByteSeq) : Result := runInstr c (decodeByte cmd) key din

end Sys2Proof.Machine
end

