-- ==== Sys2Proof/Machine/HostPort.lean ====
section
/-! DEFINITION. The host's side of the ports: ISSUE and the reads (10_state.md rules R33, R35, R36, R39; 30_encoding.md rule R72;
70_reset_and_hazards.md rules R204 to R207). -/

namespace Sys2Proof.Machine

/-- A command completed with CODE = 0 since the last reset and none was issued after it: where `@` may appear (R72; DESIGN CHOICE, log 9). -/
def State.prevOk (s : State) : Bool :=
  match s.history with
  | .completed _ _ _ :: _ => s.code == codeOk
  | .wasReset :: _ => false
  | [] => false

/-- The bytes an operand stands for; none for `@` where R72 does not allow it. -/
def State.operand (s : State) : Operand → Option ByteSeq
  | .bytes b => some b
  | .prev => if s.prevOk then some s.dout else none

/-- R33: the key, the input and the output the command would produce all fit the buffers. -/
def capacityOk (cmd : Byte) (key din : ByteSeq) : Bool :=
  fits key && fits din && fits (run Config.cipher cmd key din).out

/-- ISSUE(cmd, key, din) on bytes (R35), refused over capacity (R33, R207(a)). It is reached only while BUSY = 0 (R204). -/
def State.issueBytes (s : State) (cmd : Byte) (key din : ByteSeq) : Host.Outcome State Fault Refusal :=
  if capacityOk cmd key din then .next (s.latch cmd key din) else .refused .overCapacity

/-- ISSUE of a program line (R72): the operands first, `@` refused where it denotes nothing (R207(b)). -/
def State.issue (s : State) (cmd : Byte) (key din : Operand) : Host.Outcome State Fault Refusal :=
  match s.operand key, s.operand din with
  | some k, some d => s.issueBytes cmd k d
  | some _, none => .refused .noPreviousOutput
  | none, _ => .refused .noPreviousOutput

/-- The host notes what a read returned; the block is untouched, since "Reads have no side effects" (R36, R49). -/
def State.note (s : State) (r : HostRead) : State := { s with reads := r :: s.reads }

/-- A read of STATUS, allowed at any time; while BUSY = 1 it uses up one free value for the CODE bits (R36, R205; DESIGN CHOICE, log 4). -/
def State.readStatus (s : State) : Host.Outcome State Fault Refusal :=
  .next (s.note (.status s.statusRead)).useFree

/-- A read of ERR_POS: a fault while BUSY = 1 (R205). -/
def State.readErrPos (s : State) : Host.Outcome State Fault Refusal :=
  if s.busy then .fault (.readWhileBusy .errPos) else .next (s.note (.errPos s.errPos))

/-- A read of OUT_LEN: a fault while BUSY = 1 (R205). -/
def State.readOutLen (s : State) : Host.Outcome State Fault Refusal :=
  if s.busy then .fault (.readWhileBusy .outLen) else .next (s.note (.outLen s.outLen))

/-- A read of DOUT[i]: a fault while BUSY = 1 (R205) and at an index past the output (R28). -/
def State.readDout (s : State) (i : Nat) : Host.Outcome State Fault Refusal :=
  if s.busy then .fault (.readWhileBusy .dout)
  else
    match s.dout[i]? with
    | some b => .next (s.note (.dout i b))
    | none => .fault (.doutIndexOutOfRange i)

end Sys2Proof.Machine
end

