-- ==== Sys2Proof/Machine/Framing.lean ====
section
/-! DEFINITION. The host's message framing (48_host_framing.md rules R160 to R168; DEDUCED, log 16): each operation as a pure function of its
arguments, for any cipher, and as the host's moves over the command port. -/

namespace Sys2Proof.Machine

/-- `"+OK "` (R161). -/
def tagOk : ByteSeq := [0x2B#8, 0x4F#8, 0x4B#8, 0x20#8]

/-- `"mcps "` (R161). -/
def tagMcps : ByteSeq := [0x6D#8, 0x63#8, 0x70#8, 0x73#8, 0x20#8]

/-- `ISENC(t)`: the text begins with one of the tags, byte for byte (R163). -/
def isEncText (t : ByteSeq) : Bool := tagOk.isPrefixOf t || tagMcps.isPrefixOf t

/-- The text after its matched tag (R164). -/
def stripTag (t : ByteSeq) : ByteSeq :=
  if tagOk.isPrefixOf t then t.drop tagOk.length else t.drop tagMcps.length

/-- `TRIM(p)`: without the maximal run of trailing zero bytes, no cap (R165; 90_conflicts.md C5). -/
def trim (p : ByteSeq) : ByteSeq := (p.reverse.dropWhile fun b => b == 0x00#8).reverse

/-- `ENCRYPT(key, m)` as a function of its arguments (R162). -/
def encryptPure (c : Cipher) (key m : ByteSeq) : HostResult :=
  let e := ecbeCmd c key (padCmd m).visible
  if e.code = codeCipherKeyError then .cipherKeyError else .bytes (tagOk ++ (encCmd e.visible).visible)

/-- `DECRYPT(key, t)` as a function of its arguments (R164); codes 2 and 3 surface as MalformedCiphertext (R166). -/
def decryptPure (c : Cipher) (key t : ByteSeq) : HostResult :=
  if isEncText t then
    let d := decCmd (stripTag t)
    if d.code = codeInvalidEncodingLength ∨ d.code = codeInvalidCharacter then .malformedCiphertext
    else
      let p := ecbdCmd c key d.visible
      if p.code = codeCipherKeyError then .cipherKeyError else .bytes (trim p.visible)
  else .bytes t

/-- The host returns a result. -/
def State.answer (s : State) (r : HostResult) : State := { s with results := r :: s.results }

/-- Issue a command and go on with move `m` once the block is idle again. -/
def State.issueThen (s : State) (cmd : Byte) (key din : Operand) (m : HostMove) : Host.Outcome State Fault Refusal :=
  (s.withQ (m :: s.hostQ)).issue cmd key din

/-- A host step on the bytes of an operand, refused where that is an `@` that denotes nothing (R72, R207(b)). -/
def State.withOperand (s : State) (o : Operand) (f : ByteSeq → Host.Outcome State Fault Refusal) : Host.Outcome State Fault Refusal :=
  match s.operand o with
  | some b => f b
  | none => .refused .noPreviousOutput

/-- ENCRYPT: `PAD m` (R73, R162). -/
def State.encryptStart (s : State) (key m : Operand) : Host.Outcome State Fault Refusal :=
  s.issueThen (encodeByte .pad) (.bytes []) m (.encryptEcb key)

/-- ENCRYPT: `ECBE key, p` on PAD's output (R162); a key `@` is read in this line of the expansion (R73; DESIGN CHOICE, log 20). -/
def State.encryptEcbStep (s : State) (key : Operand) : Host.Outcome State Fault Refusal :=
  s.issueThen (encodeByte .ecbe) key (.bytes s.dout) .encryptEnc

/-- ENCRYPT: `if CODE = 4 : return error CipherKeyError`, else `ENC c` (R162). -/
def State.encryptEncStep (s : State) : Host.Outcome State Fault Refusal :=
  if s.code = codeCipherKeyError then .next (s.answer .cipherKeyError)
  else s.issueThen (encodeByte .enc) (.bytes []) (.bytes s.dout) .encryptTag

/-- ENCRYPT: `return TAG_OK ++ e` (R162). -/
def State.encryptTagStep (s : State) : Host.Outcome State Fault Refusal :=
  .next (s.answer (.bytes (tagOk ++ s.dout)))

/-- DECRYPT: the passthrough, which issues nothing and reads no key, or `DEC s` on the stripped text (R73, R164). -/
def State.decryptStart (s : State) (key t : Operand) : Host.Outcome State Fault Refusal :=
  s.withOperand t fun b =>
    if isEncText b then s.issueThen (encodeByte .dec) (.bytes []) (.bytes (stripTag b)) (.decryptEcb key)
    else .next (s.answer (.bytes b))

/-- DECRYPT: `if CODE in (2, 3) : return error MalformedCiphertext`, else `ECBD key, c` (R164, R166);
a key `@` is read in this line of the expansion (R73; DESIGN CHOICE, log 20). -/
def State.decryptEcbStep (s : State) (key : Operand) : Host.Outcome State Fault Refusal :=
  if s.code = codeInvalidEncodingLength ∨ s.code = codeInvalidCharacter then .next (s.answer .malformedCiphertext)
  else s.issueThen (encodeByte .ecbd) key (.bytes s.dout) .decryptTrim

/-- DECRYPT: `if CODE = 4 : return error CipherKeyError`, else `return TRIM(p)` (R164). -/
def State.decryptTrimStep (s : State) : Host.Outcome State Fault Refusal :=
  if s.code = codeCipherKeyError then .next (s.answer .cipherKeyError)
  else .next (s.answer (.bytes (trim s.dout)))

/-- ISENC: the host's prefix test, no command issued (R73, R163). -/
def State.isEncStep (s : State) (t : Operand) : Host.Outcome State Fault Refusal :=
  s.withOperand t fun b => .next (s.answer (.isEncrypted (isEncText b)))

/-- The moves the host makes only while BUSY = 0: an ISSUE, the wait itself, and the framing steps, which issue or read results
(R204, R205). STATUS may be read at any time (R36); the other reads are the host's to make or to leave, and fault (R205); reset
may come at any time (R200); ISENC and the passthrough of DECRYPT use no port (R163, R164) unless their text is `@`, which reads
DOUT (R72; DESIGN CHOICE, log 20). -/
def HostMove.waits : HostMove → Bool
  | .issue _ _ _ => true
  | .waitIdle => true
  | .readStatus => false
  | .readErrPos => false
  | .readOutLen => false
  | .readDout _ => false
  | .reset => false
  | .encrypt _ _ => true
  | .encryptEcb _ => true
  | .encryptEnc => true
  | .encryptTag => true
  | .decrypt _ (.bytes t) => isEncText t
  | .decrypt _ .prev => true
  | .decryptEcb _ => true
  | .decryptTrim => true
  | .isEnc (.bytes _) => false
  | .isEnc .prev => true

/-- The host has no move it makes before BUSY falls: its queue is empty, or its next move waits (R204; DESIGN CHOICE, log 1). -/
def State.hostWaits (s : State) : Bool :=
  match s.hostQ with
  | [] => true
  | m :: _ => m.waits

/-- One move of the host, already taken off its queue. -/
def hostStep (m : HostMove) (s : State) : Host.Outcome State Fault Refusal :=
  match m with
  | .issue cmd key din => s.issue cmd key din
  | .waitIdle => .next s
  | .readStatus => s.readStatus
  | .readErrPos => s.readErrPos
  | .readOutLen => s.readOutLen
  | .readDout i => s.readDout i
  | .reset => .next s.resetBlock
  | .encrypt key m => s.encryptStart key m
  | .encryptEcb key => s.encryptEcbStep key
  | .encryptEnc => s.encryptEncStep
  | .encryptTag => s.encryptTagStep
  | .decrypt key t => s.decryptStart key t
  | .decryptEcb key => s.decryptEcbStep key
  | .decryptTrim => s.decryptTrimStep
  | .isEnc t => s.isEncStep t

/-- An idle block whose host has nothing left to do: no COMPLETE is enabled (R38) and the state is final (R210; DESIGN CHOICE, log 1). -/
def idleStep (s : State) : Host.Outcome State Fault Refusal := .next s

/-- The outside world gives the host more to do (DESIGN CHOICE, log 2). -/
def State.load (s : State) (moves : List HostMove) : State := s.withQ (s.hostQ ++ moves)

/-- The outside world asserts reset, before anything else happens: "Reset may be asserted at any time" (R200). -/
def State.assertReset (s : State) : State := s.withQ (.reset :: s.hostQ)

end Sys2Proof.Machine
end

