-- ==== Sys2Proof/Machine/Step.lean ====
section
/-! DEFINITION. One step of the machine: a COMPLETE of the block, a move of the host, or nothing where neither has anything to do
(10_state.md rules R22, R38; 70_reset_and_hazards.md rules R204, R206). -/

namespace Sys2Proof.Machine

/-- COMPLETE (R38): the command in flight runs. It is reached only with BUSY = 1 (DEDUCED, log 18). -/
def blockStep (s : State) : Host.Outcome State Fault Refusal := exec s.fetch s

/-- One step. While BUSY = 1 and the host waits, the block COMPLETEs; otherwise the host makes its next move; an idle block whose
host has nothing left stays as it is (DESIGN CHOICE, log 1). -/
def step (s : State) : Host.Outcome State Fault Refusal :=
  if s.busy && s.hostWaits then blockStep s
  else
    match s.hostQ with
    | [] => idleStep s
    | m :: rest => hostStep m (s.withQ rest)

/-- A command byte where the block takes its next command from: latched, in flight, and the host with nothing to do first
(R24, R55; DESIGN CHOICE, log 2). The key and input latches stay. -/
def State.withFetchWord (s : State) (nbits w : Nat) : State :=
  s.placeCommand (tableByte nbits w)

end Sys2Proof.Machine
end

