-- ==== Sys2Proof/Machine/Assembler.lean ====
section
/-! DEFINITION. Command programs: the line syntax, the pseudo-instructions and what each line makes the host do (30_encoding.md rules
R72, R73). Text is a byte sequence of ASCII codes (R8). Lexical points that R72 leaves open are DESIGN CHOICE, log 12. -/

namespace Sys2Proof.Machine

/-- The byte sequence a quoted string of US-ASCII characters stands for (R8); it is applied to no other string. -/
def ascii (s : String) : ByteSeq := s.toList.map fun c => BitVec.ofNat 8 c.toNat

/-- One line of a program: a command (R72) or a pseudo-instruction (R73). -/
inductive Line where
  /-- One of the seven mnemonics with its operands; the key is `[]` where the mnemonic takes none. -/
  | command (i : Instr) (key din : Operand)
  /-- `.byte 0xNN, din`: a raw command byte and an empty key. -/
  | rawByte (b : Byte) (din : Operand)
  | encrypt (key m : Operand)
  | decrypt (key t : Operand)
  | isEnc (t : Operand)
  | codecEncode (m : Operand)
deriving DecidableEq, Repr

/-- "Each line encodes as one ISSUE transaction ..., followed by the host waiting for `BUSY = 0`" (R72); the pseudo-instructions
expand as R73 says. -/
def Line.moves : Line → List HostMove
  | .command i key din => [.issue (encodeByte i) key din, .waitIdle]
  | .rawByte b din => [.issue b (.bytes []) din, .waitIdle]
  | .encrypt key m => [.encrypt key m]
  | .decrypt key t => [.decrypt key t]
  | .isEnc t => [.isEnc t]
  | .codecEncode m =>
    [.issue (encodeByte .pad) (.bytes []) m, .waitIdle, .issue (encodeByte .enc) (.bytes []) .prev, .waitIdle]

/-- The moves of a program, line by line. -/
def programMoves (p : List Line) : List HostMove := p.flatMap Line.moves

/-- Why a text is no program line. -/
inductive AsmError where
  | unknownMnemonic
  | badOperand
  | wrongOperands
deriving DecidableEq, Repr

/-- Space and tab. -/
def isBlank (c : Byte) : Bool := c == 0x20#8 || c == 0x09#8

/-- Letters, digits, `_` and `.`: the characters of a mnemonic or a label. -/
def isWordChar (c : Byte) : Bool :=
  (0x30#8 ≤ c && c ≤ 0x39#8) || (0x41#8 ≤ c && c ≤ 0x5A#8) || (0x61#8 ≤ c && c ≤ 0x7A#8) || c == 0x5F#8 || c == 0x2E#8

def skipBlanks (t : ByteSeq) : ByteSeq := t.dropWhile isBlank

/-- The end of a line's code: nothing left, or a comment (R72). -/
def atEnd (t : ByteSeq) : Bool :=
  match t with
  | [] => true
  | c :: _ => c == 0x3B#8

def hexDigit (c : Byte) : Option Nat :=
  if 0x30#8 ≤ c ∧ c ≤ 0x39#8 then some (c.toNat - 0x30)
  else if 0x41#8 ≤ c ∧ c ≤ 0x46#8 then some (c.toNat - 0x41 + 10)
  else if 0x61#8 ≤ c ∧ c ≤ 0x66#8 then some (c.toNat - 0x61 + 10)
  else none

/-- The rest of a string after its opening quote; `esc` says that the last character was a backslash. Only `\0` is an escape (R72).
A byte of 0x80 or more, which is no US-ASCII code, stands for itself: R8 says nothing of it (DESIGN CHOICE, log 12). -/
def stringRest : (esc : Bool) → ByteSeq → Option (ByteSeq × ByteSeq)
  | _, [] => none
  | true, c :: t => if c = 0x30#8 then (stringRest false t).map fun r => (0x00#8 :: r.1, r.2) else none
  | false, c :: t =>
    if c = 0x22#8 then some ([], t)
    else if c = 0x5C#8 then stringRest true t
    else (stringRest false t).map fun r => (c :: r.1, r.2)

/-- The rest of `x'..'` after its opening quote; `hi` is a high digit already read. -/
def hexRest : (hi : Option Nat) → ByteSeq → Option (ByteSeq × ByteSeq)
  | _, [] => none
  | none, c :: t =>
    if c = 0x27#8 then some ([], t)
    else match hexDigit c with
      | some h => hexRest (some h) t
      | none => none
  | some h, c :: t =>
    match hexDigit c with
    | some l => (hexRest none t).map fun r => (BitVec.ofNat 8 (16 * h + l) :: r.1, r.2)
    | none => none

/-- `operand ::= string | hexbytes | "@" | "[]"` (R72), with the text after it. -/
def parseOperand : ByteSeq → Option (Operand × ByteSeq)
  | [] => none
  | c :: t =>
    if c = 0x22#8 then (stringRest false t).map fun r => (.bytes r.1, r.2)
    else if c = 0x40#8 then some (.prev, t)
    else match t with
      | [] => none
      | d :: t' =>
        if c = 0x78#8 ∧ d = 0x27#8 then (hexRest none t').map fun r => (.bytes r.1, r.2)
        else if c = 0x5B#8 ∧ d = 0x5D#8 then some (.bytes [], t')
        else none

/-- `operand ("," operand)*` and then the end of the line; `n` bounds the number of operands. -/
def parseOperands : (n : Nat) → ByteSeq → Option (List Operand)
  | 0, _ => none
  | n + 1, t =>
    match parseOperand (skipBlanks t) with
    | none => none
    | some (o, r) =>
      match skipBlanks r with
      | [] => some [o]
      | c :: r' =>
        if c = 0x2C#8 then (parseOperands n r').map (o :: ·)
        else if c = 0x3B#8 then some [o]
        else none

/-- The operands after a mnemonic, if any. -/
def operandsOf (t : ByteSeq) : Option (List Operand) :=
  if atEnd (skipBlanks t) then some [] else parseOperands (t.length + 1) t

/-- A command that takes `din` alone, with an empty key (R72). -/
def lineDin (i : Instr) : List Operand → Except AsmError Line
  | [din] => .ok (.command i (.bytes []) din)
  | _ => .error .wrongOperands

/-- A command that takes `key, din` (R72). -/
def lineKeyDin (i : Instr) : List Operand → Except AsmError Line
  | [key, din] => .ok (.command i key din)
  | _ => .error .wrongOperands

/-- `.byte 0xNN, din`: the byte's two hexadecimal digits, then one operand (R72). -/
def parseRawByte (t : ByteSeq) : Except AsmError Line :=
  match skipBlanks t with
  | z :: x :: h :: l :: r =>
    match hexDigit h, hexDigit l, skipBlanks r with
    | some h, some l, c :: r' =>
      if z = 0x30#8 ∧ x = 0x78#8 ∧ c = 0x2C#8 then
        match parseOperands 1 r' with
        | some [din] => .ok (.rawByte (BitVec.ofNat 8 (16 * h + l)) din)
        | _ => .error .badOperand
      else .error .badOperand
    | _, _, _ => .error .badOperand
  | _ => .error .badOperand

/-- A mnemonic with its operands: the seven commands (R72) and the pseudo-instructions (R73), each with any operands,
since its expansion puts them into lines of R72. -/
def lineOf (w : ByteSeq) (ops : List Operand) : Except AsmError Line :=
  if w = ascii "PAD" then lineDin .pad ops
  else if w = ascii "ENCB" then lineDin .encb ops
  else if w = ascii "DECB" then lineDin .decb ops
  else if w = ascii "ENC" then lineDin .enc ops
  else if w = ascii "DEC" then lineDin .dec ops
  else if w = ascii "ECBE" then lineKeyDin .ecbe ops
  else if w = ascii "ECBD" then lineKeyDin .ecbd ops
  else if w = ascii "ENCRYPT" then
    match ops with
    | [key, m] => .ok (.encrypt key m)
    | _ => .error .wrongOperands
  else if w = ascii "DECRYPT" then
    match ops with
    | [key, t] => .ok (.decrypt key t)
    | _ => .error .wrongOperands
  else if w = ascii "ISENC" then
    match ops with
    | [t] => .ok (.isEnc t)
    | _ => .error .wrongOperands
  else if w = ascii "CODEC_ENCODE" then
    match ops with
    | [m] => .ok (.codecEncode m)
    | _ => .error .wrongOperands
  else .error .unknownMnemonic

/-- `mnemonic [operand ("," operand)*] [";" comment]` (R72). -/
def parseCommand (t : ByteSeq) : Except AsmError Line :=
  let w := t.takeWhile isWordChar
  let r := t.dropWhile isWordChar
  if w = ascii ".byte" then parseRawByte r
  else
    match operandsOf r with
    | some ops => lineOf w ops
    | none => .error .badOperand

/-- One text line (R72): an optional label, then a command; none for a line that is blank or only a comment. -/
def parseLine (t : ByteSeq) : Except AsmError (Option Line) :=
  let t := skipBlanks t
  if atEnd t then .ok none
  else
    match skipBlanks (t.dropWhile isWordChar) with
    | c :: r =>
      if c = 0x3A#8 ∧ t.takeWhile isWordChar ≠ [] then (parseCommand (skipBlanks r)).map some
      else (parseCommand t).map some
    | [] => (parseCommand t).map some

/-- A program: "a list of lines, one command per line" (R72). -/
def parseLines : List ByteSeq → Except AsmError (List Line)
  | [] => .ok []
  | t :: ts =>
    match parseLine t, parseLines ts with
    | .ok none, .ok p => .ok p
    | .ok (some l), .ok p => .ok (l :: p)
    | .ok _, .error e => .error e
    | .error e, _ => .error e

/-- A program text, its lines ended by line feeds. -/
def assemble (text : ByteSeq) : Except AsmError (List Line) := parseLines (text.splitOn 0x0A#8)

end Sys2Proof.Machine
end

