-- ==== Sys2Proof/Safety.lean ====
section
/-! DEFINITION. What claims about the block are stated in: the state a completion leaves, the closed forms of the codec, the codes a
command may give, the invariant of the machine, a host that keeps its duties, and the end of a run. -/

namespace Sys2Proof.Machine

/-- `s` after a COMPLETE with this outcome: CODE, ERR_POS and DOUT hold it, BUSY has fallen, the run's history has one more triple,
and nothing else has changed (R38, R48, R184, R210). -/
def State.after (s : State) (code : BitVec 4) (errPos : Word) (dout : ByteSeq) : State :=
  { s with code, errPos, dout, busy := false, history := .completed code errPos dout :: s.history }

/-- The Group of a Block with halves `l` and `r`, character by character (R68, R112). -/
def groupOf (l r : Word) : ByteSeq :=
  [alpha (r.extractLsb' 0 6), alpha (r.extractLsb' 6 6), alpha (r.extractLsb' 12 6),
   alpha (r.extractLsb' 18 6), alpha (r.extractLsb' 24 6), alpha ((r.extractLsb' 30 2).setWidth 6),
   alpha (l.extractLsb' 0 6), alpha (l.extractLsb' 6 6), alpha (l.extractLsb' 12 6),
   alpha (l.extractLsb' 18 6), alpha (l.extractLsb' 24 6), alpha ((l.extractLsb' 30 2).setWidth 6)]

/-- The index of an alphabet byte as a number; 0 for any other byte, where it is never used. -/
def idxNat (c : Byte) : Nat := ((idx c).map BitVec.toNat).getD 0

/-- `(i_0 + i_1*2^6 + ... + i_5*2^30) mod 2^32` for the six characters from index `a` (R122). -/
def halfValue (d : ByteSeq) (a : Nat) : Word :=
  BitVec.ofNat 32
    (idxNat (memRead1 d a) + idxNat (memRead1 d (a + 1)) * 2 ^ 6 + idxNat (memRead1 d (a + 2)) * 2 ^ 12
      + idxNat (memRead1 d (a + 3)) * 2 ^ 18 + idxNat (memRead1 d (a + 4)) * 2 ^ 24 + idxNat (memRead1 d (a + 5)) * 2 ^ 30)

/-- The Block of the Group at index `a`: L's bytes, then R's (R122). -/
def blockOfGroup (d : ByteSeq) (a : Nat) : ByteSeq := bytesBE32 (halfValue d (a + 6)) ++ bytesBE32 (halfValue d a)

/-- The lowest index of a byte outside the alphabet (R27, R185). -/
def firstBad (d : ByteSeq) : Option Nat := d.findIdx? fun c => !isAlpha c

/-- The codes each command can complete with (R181). -/
def allowedCodes : Instr → List (BitVec 4)
  | .pad => [codeOk]
  | .encb => [codeOk, codeInvalidInputLength]
  | .decb => [codeOk, codeInvalidEncodingLength, codeInvalidCharacter]
  | .enc => [codeOk, codeInvalidInputLength]
  | .dec => [codeOk, codeInvalidEncodingLength, codeInvalidCharacter]
  | .ecbe => [codeOk, codeInvalidInputLength, codeCipherKeyError]
  | .ecbd => [codeOk, codeInvalidInputLength, codeCipherKeyError]
  | .illegalCommand _ => [codeIllegalCommand]

/-- The code of a command's length check, or none where it passes (R46). -/
def lengthCause : Instr → ByteSeq → Option (BitVec 4)
  | .pad, _ => none
  | .encb, d => if d.length = 8 then none else some codeInvalidInputLength
  | .decb, d => if d.length = 12 then none else some codeInvalidEncodingLength
  | .enc, d => if d.length % 8 = 0 then none else some codeInvalidInputLength
  | .dec, d => if d.length % 12 = 0 then none else some codeInvalidEncodingLength
  | .ecbe, d => if d.length % 8 = 0 then none else some codeInvalidInputLength
  | .ecbd, d => if d.length % 8 = 0 then none else some codeInvalidInputLength
  | .illegalCommand _, _ => none

/-- A command that calls the cipher (R37). -/
def usesCipher (i : Instr) : Bool := i == .ecbe || i == .ecbd

/-- A command that decodes characters (R120). -/
def decodesChars (i : Instr) : Bool := i == .decb || i == .dec

/-- The code and position of the first cause that applies, in the order of R182; code 0 where none does. -/
def firstCause (c : Cipher) (cmd : Byte) (key din : ByteSeq) : BitVec 4 × Nat :=
  if cmd.extractLsb' 4 4 ≠ 0#4 ∨ cmd.extractLsb' 0 4 = 0#4 ∨ 7#4 < cmd.extractLsb' 0 4 then (codeIllegalCommand, 0)
  else
    match lengthCause (decodeByte cmd) din with
    | some e => (e, 0)
    | none =>
      if usesCipher (decodeByte cmd) ∧ c.keyOk key = false then (codeCipherKeyError, 0)
      else
        match decodesChars (decodeByte cmd), firstBad din with
        | true, some p => (codeInvalidCharacter, p)
        | true, none => (codeOk, 0)
        | false, _ => (codeOk, 0)

/-- The triple of an event is one that R180, R184 and R185 allow. -/
def RunEvent.legal : RunEvent → Prop
  | .completed code errPos dout =>
    code.toNat ≤ 5 ∧ (code ≠ codeInvalidCharacter → errPos = 0#32) ∧ (code ≠ codeOk → dout = []) ∧ fits dout = true
  | .wasReset => True

/-- CODE, ERR_POS and DOUT hold the last event's triple: they "keep their values until the next COMPLETE overwrites them" (R186). -/
def State.agrees (s : State) : Prop :=
  match s.history with
  | .completed code errPos dout :: _ => s.code = code ∧ s.errPos = errPos ∧ s.dout = dout
  | .wasReset :: _ => s.code = codeOk ∧ s.errPos = 0#32 ∧ s.dout = []
  | [] => s.code = codeOk ∧ s.errPos = 0#32 ∧ s.dout = []

/-- The invariant of the machine: only the codes 0 to 5 (R26, R180), an error position only for InvalidCharacter (R27), output only
for OK (R28), every buffer within capacity (R33), the output of a command in flight too, the registers hold the last event's triple
(R186), and so does every event of the run. -/
structure State.Inv (s : State) : Prop where
  codeLegal : s.code.toNat ≤ 5
  posOnlyForBadChar : s.code ≠ codeInvalidCharacter → s.errPos = 0#32
  outOnlyForOk : s.code ≠ codeOk → s.dout = []
  keyFits : fits s.keyL = true
  dinFits : fits s.dinL = true
  doutFits : fits s.dout = true
  outFits : s.busy = true → fits (run Config.cipher s.cmdL s.keyL s.dinL).out = true
  agrees : s.agrees
  past : ∀ e ∈ s.history, e.legal

/-- The host's next move keeps its duties: no read of a result while BUSY = 1 (R205), no DOUT index past OUT_LEN (R28). -/
def State.dutiful (s : State) : Prop :=
  match s.hostQ with
  | .readErrPos :: _ => s.busy = false
  | .readOutLen :: _ => s.busy = false
  | .readDout i :: _ => s.busy = false ∧ i < s.dout.length
  | _ => True

/-- The end of a run: the last command has completed and the host has finished; "A state with `BUSY = 1` is never final" (R210). -/
def State.Final (s : State) : Prop := s.busy = false ∧ s.hostQ = []

/-- `n` steps, stopping at the first fault or refusal: a run (R210). -/
def steps : Nat → State → Host.Outcome State Fault Refusal
  | 0, s => .next s
  | n + 1, s =>
    match step s with
    | .next t => steps n t
    | .fault r => .fault r
    | .refused r => .refused r

/-- What an operand denotes where `@` denotes `out` (R72). -/
def Operand.given : Operand → ByteSeq → ByteSeq
  | .bytes b, _ => b
  | .prev, out => out

/-- A move that issues a command in this state (R33, R35): an ISSUE, and a framing step that has not ended with a result
(R162, R164). -/
def State.issuesCommand (s : State) : HostMove → Bool
  | .issue _ _ _ => true
  | .encrypt _ _ => true
  | .encryptEcb _ => true
  | .encryptEnc => s.code != codeCipherKeyError
  | .decrypt _ t => isEncText (t.given s.dout)
  | .decryptEcb _ => s.code != codeInvalidEncodingLength && s.code != codeInvalidCharacter
  | .waitIdle | .readStatus | .readErrPos | .readOutLen | .readDout _ | .reset | .encryptTag | .decryptTrim | .isEnc _ => false

/-- A move that takes an operand `@` now (R72); the key of ENCRYPT and DECRYPT is taken by their second step (log 20). -/
def HostMove.takesPrev : HostMove → Bool
  | .issue _ key din => key == .prev || din == .prev
  | .encrypt _ m => m == .prev
  | .encryptEcb key => key == .prev
  | .decrypt _ t => t == .prev
  | .decryptEcb key => key == .prev
  | .isEnc t => t == .prev
  | .waitIdle | .readStatus | .readErrPos | .readOutLen | .readDout _ | .reset | .encryptEnc | .encryptTag | .decryptTrim => false

/-- A move that reads a result register (R36, R205). -/
def HostMove.readsResult : HostMove → Bool
  | .readErrPos => true
  | .readOutLen => true
  | .readDout _ => true
  | _ => false

end Sys2Proof.Machine
end

