-- ==== Sys2Proof/Certificates/Slice0/Obligations.lean ====
section
/-! DEFINITION. The statements about the block for the provers, each from numbered rules of spec/. -/

open Sys2Proof Sys2Proof.Machine

/-! ### Encoding and dispatch -/

/-- R61, R64, R65: for every well-formed command, decoding its byte (with any bytes after it) gives it back and leaves those bytes;
every byte decodes to a well-formed command that encodes to that byte. -/
def Obligations.DecodeAndEncodeAgree : Prop :=
  (∀ (i : Instr) (rest : ByteSeq), i.wf = true → decode (encode i ++ rest) = .ok (i, rest)) ∧
  (∀ b : Byte, (decodeByte b).wf = true ∧ encodeByte (decodeByte b) = b)

/-- R61 to R63: the seven command bytes of the opcode map and six reserved bytes, written out from the spec. -/
def Obligations.OpcodeMapBytesDecode : Prop :=
  decode [0b00000001#8] = .ok (.pad, []) ∧ decode [0b00000010#8] = .ok (.encb, []) ∧
  decode [0b00000011#8] = .ok (.decb, []) ∧ decode [0b00000100#8] = .ok (.enc, []) ∧
  decode [0b00000101#8] = .ok (.dec, []) ∧ decode [0b00000110#8] = .ok (.ecbe, []) ∧
  decode [0b00000111#8] = .ok (.ecbd, []) ∧
  (∀ b ∈ [0x00#8, 0x08#8, 0x0F#8, 0x11#8, 0x81#8, 0xFF#8], decode [b] = .ok (.illegalCommand b, []))

/-- R64: all 256 bytes have an outcome: each command byte's command completes in every state, 0x01 to 0x07 select commands and the
other 249 are IllegalCommand. -/
def Obligations.EveryByteHasAnOutcome : Prop :=
  ∀ (b : Byte) (s : State),
    (∃ t, exec (decodeByte b) s = .next t) ∧
    (1 ≤ b.toNat ∧ b.toNat ≤ 7 → ∀ x, decodeByte b ≠ .illegalCommand x) ∧
    (b.toNat = 0 ∨ 8 ≤ b.toNat → decodeByte b = .illegalCommand b)

/-- R62, R63: a byte with RSV = 0 and a reserved OPC, or with RSV != 0 whatever its OPC, completes with CODE = 5, ERR_POS = 0,
DOUT = [] and nothing else changed, for every key, input and state. -/
def Obligations.ReservedBytesCompleteIllegal : Prop :=
  ∀ (b : Byte) (s : State),
    (b.extractLsb' 4 4 = 0#4 ∧ b.extractLsb' 0 4 ∈ [0x0#4, 0x8#4, 0x9#4, 0xA#4, 0xB#4, 0xC#4, 0xD#4, 0xE#4, 0xF#4])
      ∨ b.extractLsb' 4 4 ≠ 0#4 →
    decodeByte b = .illegalCommand b ∧ exec (.illegalCommand b) s = .next (s.after 5#4 0#32 [])

/-! ### The step -/

/-- R24, R38, R66, and the model's choices of logs 1 and 2. While a command is in flight and the host waits (that COMPLETE comes
exactly then: log 1), step is exec of the command that the latched byte decodes to, with nothing around it. A byte placed by
withFetchWord, which stands for an ISSUE (log 2), is run by the very next step. -/
def Obligations.StepRunsTheDecodedCommand : Prop :=
  (∀ s : State, s.busy = true → s.hostWaits = true →
    ∃ i, decode [s.cmdL] = .ok (i, []) ∧ i.wf = true ∧ step s = exec i s) ∧
  (∀ (s : State) (b : Byte),
    step (s.withFetchWord 8 b.toNat) = exec (decodeByte b) (s.withFetchWord 8 b.toNat) ∧
    (s.withFetchWord 8 b.toNat).cmdL = b)

/-- R38: COMPLETE. With BUSY = 1 and the host waiting (log 1: the order of the agents is the model's), the step puts RUN's triple on the latched values into CODE, ERR_POS and DOUT
(`[]` unless the code is 0), clears BUSY and changes nothing else but the record of the run; with BUSY = 0 no step completes
anything. ERR_POS is RUN's position where 32 bits hold it. -/
def Obligations.CompleteIsRunOnTheLatches : Prop :=
  (∀ s : State, s.busy = true → s.hostWaits = true →
    let r := run Config.cipher s.cmdL s.keyL s.dinL
    step s = .next (s.after r.code (errPosWord r.pos) (if r.code = 0#4 then r.out else []))) ∧
  (∀ s t : State, s.busy = false → step s = .next t → t.history = s.history ∨ t.history = .wasReset :: s.history) ∧
  (∀ n < 2 ^ 32, (errPosWord n).toNat = n)

/-- R206, in the model's own terms: a queue of host moves that is finite, in place of weak fairness (log 19), and the order of the
two agents (log 1). While BUSY = 1 a step either completes or abandons the command, or leaves it in flight on the same latches with
fewer moves of the host before it; and a host that reads no result while busy lets every command end within as many steps as it has
moves pending, and one. That bound is the model's: R206 has none. -/
def Obligations.EveryCommandEnds : Prop :=
  (∀ s t : State, s.busy = true → step s = .next t →
    t.busy = false ∨
      (t.busy = true ∧ t.cmdL = s.cmdL ∧ t.keyL = s.keyL ∧ t.dinL = s.dinL ∧ t.hostQ.length < s.hostQ.length)) ∧
  (∀ s : State, s.busy = true → (∀ m ∈ s.hostQ, m.readsResult = false) →
    ∃ n t, n ≤ s.hostQ.length + 1 ∧ steps n s = .next t ∧ t.busy = false)

/-- The model's own choice (log 1), beside R197 and R210: an idle block whose host has nothing left to do stays as it is; that is a
final state, and no state with a command in flight is one. -/
def Obligations.IdleBlockStaysAsItIs : Prop :=
  (∀ s : State, s.Final → step s = .next s) ∧ (∀ s : State, s.busy = true → ¬ s.Final)

/-! ### The commands: what each completes with -/

/-- R100, R101: PAD always completes OK; DOUT is the input with the fewest zero bytes that make its length a multiple of 8, between
none and seven. -/
def Obligations.PadCompletes : Prop :=
  decodeByte 0x01#8 = .pad ∧
  ∀ s : State, ∃ n ≤ 7,
    exec .pad s = .next (s.after 0#4 0#32 (s.dinL ++ List.replicate n 0x00#8)) ∧
    (s.dinL.length + n) % 8 = 0 ∧ (s.dinL.length % 8 = 0 → n = 0) ∧
    s.dinL.length + n = 8 * ((s.dinL.length + 7) / 8)

/-- R111: ENCB of exactly 8 bytes completes OK with the Group of the Block's big-endian halves; of any other length with
InvalidInputLength. -/
def Obligations.EncbCompletes : Prop :=
  decodeByte 0x02#8 = .encb ∧
  (∀ (s : State) (b0 b1 b2 b3 b4 b5 b6 b7 : Byte), s.dinL = [b0, b1, b2, b3, b4, b5, b6, b7] →
    exec .encb s = .next (s.after 0#4 0#32 (groupOf (b0 ++ b1 ++ b2 ++ b3) (b4 ++ b5 ++ b6 ++ b7)))) ∧
  (∀ s : State, s.dinL.length ≠ 8 → exec .encb s = .next (s.after 1#4 0#32 []))

/-- R115: ENC of a multiple of 8 bytes completes OK with the Groups of its Blocks in order; of any other length with
InvalidInputLength. -/
def Obligations.EncCompletes : Prop :=
  decodeByte 0x04#8 = .enc ∧
  (∀ s : State, s.dinL.length % 8 = 0 →
    exec .enc s = .next (s.after 0#4 0#32
      ((List.range (s.dinL.length / 8)).flatMap fun j =>
        groupOf (memRead4 s.dinL (8 * j)) (memRead4 s.dinL (8 * j + 4))))) ∧
  (∀ s : State, s.dinL.length % 8 ≠ 0 → exec .enc s = .next (s.after 1#4 0#32 []))

/-- R121: DECB. Not 12 bytes: InvalidEncodingLength whatever the bytes. 12 bytes with one outside the alphabet: InvalidCharacter at
the lowest such index. 12 alphabet bytes: OK with the Block of R122. -/
def Obligations.DecbCompletes : Prop :=
  decodeByte 0x03#8 = .decb ∧
  (∀ s : State, s.dinL.length ≠ 12 → exec .decb s = .next (s.after 2#4 0#32 [])) ∧
  (∀ (s : State) (p : Nat), s.dinL.length = 12 → firstBad s.dinL = some p →
    exec .decb s = .next (s.after 3#4 (BitVec.ofNat 32 p) [])) ∧
  (∀ s : State, s.dinL.length = 12 → firstBad s.dinL = none →
    exec .decb s = .next (s.after 0#4 0#32 (blockOfGroup s.dinL 0)))

/-- R131: DEC, likewise over every Group. An error index that 32 bits cannot hold (possible only with MAX_LEN unbounded) leaves a free
value in ERR_POS, about which nothing is said. -/
def Obligations.DecCompletes : Prop :=
  decodeByte 0x05#8 = .dec ∧
  (∀ s : State, s.dinL.length % 12 ≠ 0 → exec .dec s = .next (s.after 2#4 0#32 [])) ∧
  (∀ (s : State) (p : Nat), s.dinL.length % 12 = 0 → firstBad s.dinL = some p →
    ∃ e : Word, exec .dec s = .next (s.after 3#4 e []) ∧ (p < 2 ^ 32 → e.toNat = p)) ∧
  (∀ s : State, s.dinL.length % 12 = 0 → firstBad s.dinL = none →
    exec .dec s = .next (s.after 0#4 0#32
      ((List.range (s.dinL.length / 12)).flatMap fun j => blockOfGroup s.dinL (12 * j))))

/-- R141, R144: ECBE. The length first (InvalidInputLength), then the key (CipherKeyError, even for no Blocks), else every Block
enciphered under the key as latched, in order. -/
def Obligations.EcbeCompletes : Prop :=
  decodeByte 0x06#8 = .ecbe ∧
  ∀ s : State, exec .ecbe s = .next (
    if s.dinL.length % 8 ≠ 0 then s.after 1#4 0#32 []
    else if Config.cipher.keyOk s.keyL = false then s.after 4#4 0#32 []
    else s.after 0#4 0#32
      ((List.range (s.dinL.length / 8)).flatMap fun j =>
        (Config.cipher.encBlk s.keyL (blockAt s.dinL (8 * j))).toList))

/-- R144, R151: ECBD, likewise with decBlk. -/
def Obligations.EcbdCompletes : Prop :=
  decodeByte 0x07#8 = .ecbd ∧
  ∀ s : State, exec .ecbd s = .next (
    if s.dinL.length % 8 ≠ 0 then s.after 1#4 0#32 []
    else if Config.cipher.keyOk s.keyL = false then s.after 4#4 0#32 []
    else s.after 0#4 0#32
      ((List.range (s.dinL.length / 8)).flatMap fun j =>
        (Config.cipher.decBlk s.keyL (blockAt s.dinL (8 * j))).toList))

/-! ### Frames and error completions -/

/-- R49: reads change no register of the block, in any state; a command, of all eight kinds, writes only CODE, ERR_POS, DOUT and BUSY
(and one more triple in the run's record), so that the latches, the host's moves, its reads and results and the free-value counter
stay; and the same latches give the same results. -/
def Obligations.CommandsWriteOnlyTheirResults : Prop :=
  (∀ (s t : State) (m : HostMove), m = .readStatus ∨ m.readsResult = true → hostStep m s = .next t →
    t.busy = s.busy ∧ t.cmdL = s.cmdL ∧ t.keyL = s.keyL ∧ t.dinL = s.dinL ∧ t.code = s.code ∧ t.errPos = s.errPos ∧
      t.dout = s.dout ∧ t.history = s.history) ∧
  (∀ (i : Instr) (s t : State), exec i s = .next t →
    t.busy = false ∧ t.history = .completed t.code t.errPos t.dout :: s.history ∧
    t.cmdL = s.cmdL ∧ t.keyL = s.keyL ∧ t.dinL = s.dinL ∧ t.hostQ = s.hostQ ∧ t.reads = s.reads ∧
      t.results = s.results ∧ t.freeCount = s.freeCount) ∧
  (∀ (i : Instr) (s s' t t' : State), s.keyL = s'.keyL → s.dinL = s'.dinL → exec i s = .next t → exec i s' = .next t' →
    t.code = t'.code ∧ t.errPos = t'.errPos ∧ t.dout = t'.dout)

/-- R48, R184, R185: a command that completes with an error leaves DOUT empty and BUSY clear, and ERR_POS at 0 unless the code is
InvalidCharacter; OK leaves ERR_POS at 0 too. -/
def Obligations.ErrorsLeaveNoOutput : Prop :=
  ∀ (i : Instr) (s : State), ∃ t, exec i s = .next t ∧ t.busy = false ∧
    (t.code ≠ 0#4 → t.dout = []) ∧ (t.code ≠ 3#4 → t.errPos = 0#32)

/-- R181: the table of codes, in both directions: a command completes with a code, for some cipher, key and input, exactly where the
table says yes. -/
def Obligations.CodesOfEachCommand : Prop :=
  ∀ (i : Instr) (e : BitVec 4),
    (∃ (c : Cipher) (key din : ByteSeq), (runInstr c i key din).code = e) ↔ e ∈ allowedCodes i

/-- R182: every command byte reports the code and position of the first cause that applies, in the order IllegalCommand, length, key,
lowest-indexed bad character; for every cipher, key and input; and in the host's DECRYPT the codes of DEC come before the key's. -/
def Obligations.FirstCauseIsReported : Prop :=
  (∀ (c : Cipher) (cmd : Byte) (key din : ByteSeq),
    ((run c cmd key din).code, (run c cmd key din).pos) = firstCause c cmd key din) ∧
  (∀ (c : Cipher) (key t : ByteSeq), isEncText t = true → (decCmd (stripTag t)).code ≠ 0#4 →
    decryptPure c key t = .malformedCiphertext)

/-- R101, R111, R115, R121, R131, R62: the commands that use no key and no cipher complete the same whatever these are. -/
def Obligations.OnlyEcbUsesTheKey : Prop :=
  ∀ (c c' : Cipher) (i : Instr) (key key' din : ByteSeq),
    usesCipher i = false → runInstr c i key din = runInstr c' i key' din

/-! ### The zero padder and the codec -/

/-- R102: PAD is idempotent and keeps the bytes of its input first and unchanged. -/
def Obligations.PadIsIdempotent : Prop :=
  ∀ d : ByteSeq, pad8 (pad8 d) = pad8 d ∧ (pad8 d).take d.length = d

/-- R29, R30: the ROM is the 64 distinct bytes of R29's string, in that order; IDX is R30's three ranges, undefined for every other
byte; and each inverts the other. -/
def Obligations.AlphabetInverse : Prop :=
  alphaRom.length = 64 ∧ alphaRom.Nodup ∧
  alphaRom = ascii "./0123456789abcdefghijklmnopqrstuvwxyzABCDEFGHIJKLMNOPQRSTUVWXYZ" ∧
  (∀ c : Byte, idx c =
    if 0x2E ≤ c.toNat ∧ c.toNat ≤ 0x39 then some (BitVec.ofNat 6 (c.toNat - 0x2E))
    else if 0x61 ≤ c.toNat ∧ c.toNat ≤ 0x7A then some (BitVec.ofNat 6 (c.toNat - 0x55))
    else if 0x41 ≤ c.toNat ∧ c.toNat ≤ 0x5A then some (BitVec.ofNat 6 (c.toNat - 0x1B))
    else none) ∧
  (∀ i : Sextet, idx (alpha i) = some i) ∧
  (∀ c : Byte, match idx c with
    | some i => alpha i = c
    | none => c ∉ alphaRom)

/-- R112: the closed form of the encoder datapath, for every Block, wherever it stands in the input. -/
def Obligations.EncoderClosedForm : Prop :=
  ∀ (pre post : ByteSeq) (b0 b1 b2 b3 b4 b5 b6 b7 : Byte),
    encBlock (pre ++ [b0, b1, b2, b3, b4, b5, b6, b7] ++ post) pre.length
      = groupOf (be32 b0 b1 b2 b3) (be32 b4 b5 b6 b7)

/-- R113: characters 5 and 11 of every Group the encoder produces are among `.`, `/`, `0` and `1`. -/
def Obligations.LastCharactersAreSmall : Prop :=
  ∀ (d : ByteSeq) (a : Nat), (encBlock d a).length = 12 ∧
    memRead1 (encBlock d a) 5 ∈ [0x2E#8, 0x2F#8, 0x30#8, 0x31#8] ∧
    memRead1 (encBlock d a) 11 ∈ [0x2E#8, 0x2F#8, 0x30#8, 0x31#8]

/-- R44: as a number, the first character carries `V[5:0]`, the sixth `V[31:30]`, the seventh `V[37:32]` and the twelfth `V[63:62]` of
the Block's 64-bit big-endian value V. -/
def Obligations.SextetsOfTheWholeBlock : Prop :=
  ∀ (l r : Word),
    let v : BitVec 64 := l ++ r
    let d := bytesBE32 l ++ bytesBE32 r
    memRead1 (encBlock d 0) 0 = alpha (v.extractLsb' 0 6) ∧
    memRead1 (encBlock d 0) 5 = alpha ((v.extractLsb' 30 2).setWidth 6) ∧
    memRead1 (encBlock d 0) 6 = alpha (v.extractLsb' 32 6) ∧
    memRead1 (encBlock d 0) 11 = alpha ((v.extractLsb' 62 2).setWidth 6)

/-- R122: the closed form of the decoder datapath on a Group of alphabet bytes. -/
def Obligations.DecoderClosedForm : Prop :=
  ∀ g : ByteSeq, g.length = 12 → g.all isAlpha = true →
    decGroup g 0 = .ok (bytesBE32 (halfValue g 6) ++ bytesBE32 (halfValue g 0))

/-- R124: Groups of alphabet bytes always decode, canonical or not, and the bits 5:2 of the indices of characters 5 and 11 are
discarded: Groups that differ only there give the same Block. -/
def Obligations.NonCanonicalGroupsDecodeByMasking : Prop :=
  ∀ g g' : ByteSeq, g.length = 12 → g'.length = 12 → g.all isAlpha = true → g'.all isAlpha = true →
    (∀ k < 12, k ≠ 5 → k ≠ 11 → memRead1 g k = memRead1 g' k) →
    (idxNat (memRead1 g 5) % 4 = idxNat (memRead1 g' 5) % 4) →
    (idxNat (memRead1 g 11) % 4 = idxNat (memRead1 g' 11) % 4) →
    ∃ b : ByteSeq, b.length = 8 ∧ decGroup g 0 = .ok b ∧ decGroup g' 0 = .ok b

/-- R125(a): for every input of a multiple of 8 bytes, DEC of ENC's output gives the input back. -/
def Obligations.DecodeOfEncode : Prop :=
  ∀ d : ByteSeq, d.length % 8 = 0 → encCmd d = .ok (encCmd d).out ∧ decCmd (encCmd d).out = .ok d

/-- R125(b), (c): re-encoding the Block of an alphabet Group gives the Group back if and only if it is canonical, and otherwise
replaces characters 5 and 11 by those of their indices' low two bits; every Block is the decoding of exactly one canonical Group. -/
def Obligations.EncodeOfDecode : Prop :=
  (∀ g : ByteSeq, g.length = 12 → g.all isAlpha = true →
    ∃ b, decGroup g 0 = .ok b ∧ (encBlock b 0 = g ↔ isCanonical g = true) ∧
      encBlock b 0 = (g.set 5 (alpha (BitVec.ofNat 6 (idxNat (memRead1 g 5) % 4)))).set 11
        (alpha (BitVec.ofNat 6 (idxNat (memRead1 g 11) % 4)))) ∧
  (∀ b : ByteSeq, b.length = 8 →
    ∃ g, isCanonical g = true ∧ decGroup g 0 = .ok b ∧ ∀ g', isCanonical g' = true → decGroup g' 0 = .ok b → g' = g)

/-- R116: ENC's output has 12 bytes a Block, and Group j depends only on Block j. -/
def Obligations.EncOutputGroupByGroup : Prop :=
  (∀ d : ByteSeq, (encCmd d).code = 0#4 → (encCmd d).out.length = 12 * (d.length / 8)) ∧
  (∀ (d d' : ByteSeq) (j : Nat), (encCmd d).code = 0#4 → (encCmd d').code = 0#4 → j < d.length / 8 → j < d'.length / 8 →
    (d.drop (8 * j)).take 8 = (d'.drop (8 * j)).take 8 →
    ((encCmd d).out.drop (12 * j)).take 12 = ((encCmd d').out.drop (12 * j)).take 12)

/-- R132: DEC's output has 8 bytes a Group, and Block j depends only on Group j. -/
def Obligations.DecOutputBlockByBlock : Prop :=
  (∀ d : ByteSeq, (decCmd d).code = 0#4 → (decCmd d).out.length = 8 * (d.length / 12)) ∧
  (∀ (d d' : ByteSeq) (j : Nat), (decCmd d).code = 0#4 → (decCmd d').code = 0#4 → j < d.length / 12 → j < d'.length / 12 →
    (d.drop (12 * j)).take 12 = (d'.drop (12 * j)).take 12 →
    ((decCmd d).out.drop (8 * j)).take 8 = ((decCmd d').out.drop (8 * j)).take 8)

/-- R126: a byte outside the alphabet in an input of the right length always raises InvalidCharacter, for both decode commands. -/
def Obligations.StrictDecoding : Prop :=
  ∀ d : ByteSeq, (∃ c ∈ d, idx c = none) →
    (d.length = 12 → (decbCmd d).code = 3#4) ∧ (d.length % 12 = 0 → (decCmd d).code = 3#4)

/-! ### The ECB wrapper, for every cipher -/

/-- R145: output Block j is the cipher's result on input Block j alone, under the key as it is, in both directions. -/
def Obligations.EcbBlockByBlock : Prop :=
  ∀ (c : Cipher) (key d : ByteSeq), d.length % 8 = 0 → c.keyOk key = true →
    (ecbeCmd c key d).code = 0#4 ∧ (ecbeCmd c key d).out.length = d.length ∧
    (ecbdCmd c key d).code = 0#4 ∧ (ecbdCmd c key d).out.length = d.length ∧
    ∀ j < d.length / 8,
      blockAt (ecbeCmd c key d).out (8 * j) = c.encBlk key (blockAt d (8 * j)) ∧
      blockAt (ecbdCmd c key d).out (8 * j) = c.decBlk key (blockAt d (8 * j))

/-- R144: the length is checked first, whatever the key; then a rejected key always gives CipherKeyError, even for no Blocks, and never
an output. -/
def Obligations.RejectedKeyIsReported : Prop :=
  (∀ (c : Cipher) (key d : ByteSeq), d.length % 8 = 0 → c.keyOk key = false →
    ecbeCmd c key d = ⟨4#4, 0, []⟩ ∧ ecbdCmd c key d = ⟨4#4, 0, []⟩) ∧
  (∀ (c : Cipher) (key d : ByteSeq), d.length % 8 ≠ 0 →
    ecbeCmd c key d = ⟨1#4, 0, []⟩ ∧ ecbdCmd c key d = ⟨1#4, 0, []⟩)

/-- R152: under CipherInverse and an accepted key, ECBE then ECBD gives the input back. -/
def Obligations.EcbRoundTrip : Prop :=
  ∀ (c : Cipher) (key d : ByteSeq), c.Inverse → c.keyOk key = true → d.length % 8 = 0 →
    (ecbeCmd c key d).code = 0#4 ∧ ecbdCmd c key (ecbeCmd c key d).out = .ok d

/-! ### Registers, ports and reset -/

/-- R26: the layout of STATUS in every state: CODE in 3:0, BUSY in 8, every other bit 0. -/
def Obligations.StatusLayout : Prop :=
  ∀ s : State, s.status.extractLsb' 0 4 = s.code ∧ s.status.extractLsb' 4 4 = 0#4 ∧
    s.status.extractLsb' 8 1 = BitVec.ofBool s.busy ∧ s.status.extractLsb' 9 23 = 0#23

/-- R34, R201: the values reset leaves. -/
def Obligations.ResetValues : Prop :=
  State.reset.busy = false ∧ State.reset.cmdL = 0x00#8 ∧ State.reset.keyL = [] ∧ State.reset.dinL = [] ∧
  State.reset.code = 0#4 ∧ State.reset.errPos = 0#32 ∧ State.reset.dout = [] ∧
  State.reset.status = 0x00000000#32 ∧ State.reset.outLen = 0#32

/-- R200, with the model's choices of logs 2 and 10: reset, asserted in any state, sets the whole record to its reset values and
abandons a command in flight, whose COMPLETE never occurs: the run's record shows the reset and no triple. That assertReset puts the
reset before every pending move, so that it is the next step, is log 2; that the host's pending moves stay is log 10. -/
def Obligations.ResetAtAnyTime : Prop :=
  ∀ s : State, ∃ t, step s.assertReset = .next t ∧ t.busy = false ∧ t.cmdL = 0x00#8 ∧ t.keyL = [] ∧ t.dinL = [] ∧
    t.code = 0#4 ∧ t.errPos = 0#32 ∧ t.dout = [] ∧ t.history = .wasReset :: s.history ∧ t.hostQ = s.hostQ

/-- R33, R35, R204: ISSUE copies the command byte, the key and the input into the latches and sets BUSY, leaving CODE, ERR_POS and
DOUT; over capacity it is refused; and while BUSY = 1 the ISSUE does not happen: the block completes instead (log 1). -/
def Obligations.IssueLatchesItsOperands : Prop :=
  ∀ (s : State) (cmd : Byte) (key din : ByteSeq) (rest : List HostMove),
    s.hostQ = .issue cmd (.bytes key) (.bytes din) :: rest →
    (s.busy = false → step s =
      if fits key = true ∧ fits din = true ∧ fits (run Config.cipher cmd key din).out = true then
        .next { s with cmdL := cmd, keyL := key, dinL := din, busy := true, hostQ := rest }
      else .refused .overCapacity) ∧
    (s.busy = true → step s = exec (decodeByte s.cmdL) s)

/-- R72, R207(b), and log 9 for the reset: in an ISSUE with an `@` as its key, its input or both, each `@` denotes DOUT after a command
that completed with CODE = 0; the ISSUE is refused after a command that did not and where there is no previous command; and, which is
the model's choice (log 9), where a reset came after the last command. -/
def Obligations.PreviousOutputOperand : Prop :=
  ∀ (s : State) (cmd : Byte) (key din : Operand) (rest : List HostMove), s.busy = false →
    s.hostQ = .issue cmd key din :: rest → key = .prev ∨ din = .prev →
    (∀ c p d q, s.history = .completed c p d :: q → s.code = 0#4 →
      step s = (s.withQ rest).issueBytes cmd (key.given s.dout) (din.given s.dout)) ∧
    (∀ c p d q, s.history = .completed c p d :: q → s.code ≠ 0#4 → step s = .refused .noPreviousOutput) ∧
    (s.history = [] → step s = .refused .noPreviousOutput) ∧
    (∀ q, s.history = .wasReset :: q → step s = .refused .noPreviousOutput)

/-- R205: while BUSY = 1, a read of ERR_POS, OUT_LEN or DOUT faults, and a read of STATUS returns bit 8 = 1, bits 31:9 and 7:4 = 0 and
some value in bits 3:0, about which nothing is said. -/
def Obligations.ReadsWhileBusy : Prop :=
  ∀ (s : State) (rest : List HostMove), s.busy = true →
    (s.hostQ = .readErrPos :: rest → step s = .fault (.readWhileBusy .errPos)) ∧
    (s.hostQ = .readOutLen :: rest → step s = .fault (.readWhileBusy .outLen)) ∧
    (∀ i, s.hostQ = .readDout i :: rest → step s = .fault (.readWhileBusy .dout)) ∧
    (s.hostQ = .readStatus :: rest → ∃ t w, step s = .next t ∧ t.reads = .status w :: s.reads ∧
      w.extractLsb' 8 1 = 1#1 ∧ w.extractLsb' 9 23 = 0#23 ∧ w.extractLsb' 4 4 = 0#4 ∧ t.busy = true)

/-- R28, R36: while BUSY = 0 the host reads STATUS, ERR_POS, OUT_LEN (the output's length, where 32 bits hold it) and DOUT[i] for
i < OUT_LEN; a read past the output faults; a read changes nothing but what the host has read. -/
def Obligations.ReadsWhileIdle : Prop :=
  ∀ (s : State) (rest : List HostMove), s.busy = false →
    (s.hostQ = .readStatus :: rest →
      step s = .next { s with hostQ := rest, reads := .status (s.code.setWidth 32) :: s.reads }) ∧
    (s.hostQ = .readErrPos :: rest → step s = .next { s with hostQ := rest, reads := .errPos s.errPos :: s.reads }) ∧
    (s.hostQ = .readOutLen :: rest → ∃ w : Word,
      step s = .next { s with hostQ := rest, reads := .outLen w :: s.reads } ∧ (s.dout.length < 2 ^ 32 → w.toNat = s.dout.length)) ∧
    (∀ i, s.hostQ = .readDout i :: rest →
      (∀ h : i < s.dout.length, step s = .next { s with hostQ := rest, reads := .dout i s.dout[i] :: s.reads }) ∧
      (s.dout.length ≤ i → step s = .fault (.doutIndexOutOfRange i)))

/-- R28, R205: a step faults exactly where the host's next move breaks a duty: a result read while busy, or a DOUT index past the
output. -/
def Obligations.FaultsOnlyOnBrokenDuties : Prop :=
  ∀ s : State, (∃ r, step s = .fault r) ↔ ¬ s.dutiful

/-- R33, R72, R189, R207: the block itself never stops a run. A step is refused only with BUSY = 0, and only for the host's next move: for
over capacity where that move issues a command (an ISSUE or a step of ENCRYPT or DECRYPT, `State.issuesCommand`), for want of a previous
output where that move takes an operand `@` (an ISSUE, a step of ENCRYPT or DECRYPT, or ISENC, `HostMove.takesPrev`) and no command
has completed OK since. No wait and no read is ever refused, and no reset. -/
def Obligations.RefusalsOnlyAtCommandsAndPrevOperands : Prop :=
  ∀ (s : State) (r : Refusal), step s = .refused r →
    s.busy = false ∧ ∃ m rest, s.hostQ = m :: rest ∧
      ((r = .overCapacity ∧ s.issuesCommand m = true) ∨
       (r = .noPreviousOutput ∧ m.takesPrev = true ∧ s.prevOk = false))

/-- R26 to R28, R33, R180, R186: every step keeps the invariant, from every state that has it. -/
def Obligations.StepKeepsTheInvariant : Prop :=
  ∀ s t : State, s.Inv → step s = .next t → t.Inv

/-- R34: the machine has the invariant at reset. -/
def Obligations.ResetHasTheInvariant : Prop := State.reset.Inv

/-! ### The host's framing -/

/-- R163, R73: ISENC is the exact test of the first four or five bytes, and the host's move answers it without touching the block; of an
operand `@` it tests DOUT once the block is idle (log 20), and is refused where `@` denotes nothing (R72). -/
def Obligations.IsEncTestsTheTags : Prop :=
  (∀ t : ByteSeq,
    (isEncText t = true ↔ (4 ≤ t.length ∧ t.take 4 = [0x2B#8, 0x4F#8, 0x4B#8, 0x20#8]) ∨
      (5 ≤ t.length ∧ t.take 5 = [0x6D#8, 0x63#8, 0x70#8, 0x73#8, 0x20#8])) ∧
    (∀ (s : State) (rest : List HostMove), s.hostQ = .isEnc (.bytes t) :: rest →
      step s = .next { s with hostQ := rest, results := .isEncrypted (isEncText t) :: s.results })) ∧
  (∀ (s : State) (rest : List HostMove), s.hostQ = .isEnc .prev :: rest → s.busy = false →
    step s = if s.prevOk then .next { s with hostQ := rest, results := .isEncrypted (isEncText s.dout) :: s.results }
      else .refused .noPreviousOutput)

/-- R165: TRIM removes zero bytes from the end only, all of them, with no cap. -/
def Obligations.TrimRemovesTheZeroSuffix : Prop :=
  ∀ p : ByteSeq, (∃ n, p = trim p ++ List.replicate n 0x00#8) ∧ (trim p).getLast? ≠ some 0x00#8

/-- R162, R73: the host's ENCRYPT over the command port, from an idle block, is the pure composition PAD, ECBE, ENC and the tag, for every
key and message operand: within seven steps it returns that result, unless a command of it is refused over capacity. A message `@`
that denotes nothing is refused (R72). A key `@` is PAD's output, as the expansion `ECBE @, @` has it (the model's reading: log 20). -/
def Obligations.EncryptIsItsComposition : Prop :=
  ∀ (s : State) (key m : Operand), s.busy = false → s.hostQ = [.encrypt key m] →
    (s.operand m = none → step s = .refused .noPreviousOutput) ∧
    (∀ d, s.operand m = some d →
      let k := key.given (pad8 d)
      if fits k = true ∧ fits (pad8 d) = true ∧
          (Config.cipher.keyOk k = true → fits (encCmd (ecbeCmd Config.cipher k (pad8 d)).out).out = true) then
        ∃ t, steps 7 s = .next t ∧ t.Final ∧ t.results = encryptPure Config.cipher k d :: s.results
      else steps 7 s = .refused .overCapacity)

/-- R164, R166, R73: the host's DECRYPT over the command port, from an idle block, for every key and text operand: an untagged text
comes back at once and no command is issued, whatever the key; a tagged one gives the pure composition DEC, ECBD, TRIM with its two
errors, unless a command of it is refused over capacity. A text `@` that denotes nothing is refused (R72). A key `@` is DEC's output,
as the expansion `ECBD @, @` has it (the model's reading: log 20). -/
def Obligations.DecryptIsItsComposition : Prop :=
  ∀ (s : State) (key t : Operand), s.busy = false → s.hostQ = [.decrypt key t] →
    (s.operand t = none → step s = .refused .noPreviousOutput) ∧
    (∀ d, s.operand t = some d →
      (isEncText d = false →
        step s = .next { s with hostQ := [], results := .bytes d :: s.results } ∧
        ∀ k, decryptPure Config.cipher k d = .bytes d) ∧
      (isEncText d = true →
        let k := key.given (decCmd (stripTag d)).out
        if fits (stripTag d) = true ∧ ((decCmd (stripTag d)).code = 0#4 → fits k = true) then
          ∃ u, steps 5 s = .next u ∧ u.Final ∧ u.results = decryptPure Config.cipher k d :: s.results
        else steps 5 s = .refused .overCapacity))

/-- R167: for every cipher with CipherInverse and every key it accepts, DECRYPT of ENCRYPT is TRIM of the message, which is the message
exactly when it does not end in 0x00. -/
def Obligations.FramingRoundTrip : Prop :=
  ∀ (c : Cipher) (key m : ByteSeq), c.Inverse → c.keyOk key = true →
    (∃ w, encryptPure c key m = .bytes w ∧ w.length = 4 + 12 * ((m.length + 7) / 8) ∧
      decryptPure c key w = .bytes (trim m)) ∧
    (trim m = m ↔ m.getLast? ≠ some 0x00#8)

/-- R72: a quoted operand of a program line stands for the bytes between its quotes, where none of them is a quote or a backslash (for
bytes of 0x80 or more, which are no US-ASCII codes, that is the model's choice: log 12), and one line issues one command and then
waits. -/
def Obligations.QuotedOperandIsItsBytes : Prop :=
  (∀ (b rest : ByteSeq), (∀ c ∈ b, c ≠ 0x22#8 ∧ c ≠ 0x5C#8) →
    parseOperand (0x22#8 :: b ++ 0x22#8 :: rest) = some (.bytes b, rest)) ∧
  (∀ (i : Instr) (key din : Operand), (Line.command i key din).moves = [.issue (encodeByte i) key din, .waitIdle])
end

