-- ==== Sys2Proof/Laws/Bytes.lean ====
section
/-! SUPPORT. Reading slices of byte sequences, and the loops over Blocks and Groups: lengths, slices, and what a loop that may stop
answers. -/

namespace Sys2Proof.Machine

theorem memRead1_slice (d : ByteSeq) (a k i : Nat) (h : i < k) : memRead1 ((d.drop a).take k) i = memRead1 d (a + i) := by
  simp only [memRead1, List.getD_eq_getElem?_getD, List.getElem?_take, List.getElem?_drop]
  simp [h]

theorem memRead1_append_left (x y : ByteSeq) (i : Nat) (h : i < x.length) : memRead1 (x ++ y) i = memRead1 x i := by
  simp [memRead1, List.getElem?_append_left h]

theorem memRead1_append_right (x y : ByteSeq) (i : Nat) : memRead1 (x ++ y) (x.length + i) = memRead1 y i := by
  simp [memRead1, List.getElem?_append_right (Nat.le_add_right _ _)]

theorem memRead4_slice (d : ByteSeq) (a k i : Nat) (h : i + 3 < k) : memRead4 ((d.drop a).take k) i = memRead4 d (a + i) := by
  simp only [memRead4, Nat.add_assoc]
  rw [memRead1_slice _ _ _ _ (by omega), memRead1_slice _ _ _ _ (by omega), memRead1_slice _ _ _ _ (by omega),
    memRead1_slice _ _ _ _ (by omega)]

theorem blockAt_slice (d : ByteSeq) (a : Nat) : blockAt ((d.drop a).take 8) 0 = blockAt d a := by
  have key : ∀ i < 8, memRead1 ((d.drop a).take 8) i = memRead1 d (a + i) := fun i hi => memRead1_slice d a 8 i hi
  simp [blockAt, key]

/-- A sequence of 8 bytes is the list of its Block. -/
theorem blockAt_toList (b : ByteSeq) (h : b.length = 8) : (blockAt b 0).toList = b := by
  match b, h with
  | [_, _, _, _, _, _, _, _], _ => rfl

theorem blockAt_of_toList (b : Block) : blockAt b.toList 0 = b := by
  apply Vector.toList_inj.mp
  exact blockAt_toList _ (by simp)

@[simp] theorem forBlocks_zero (f : Nat → ByteSeq) : forBlocks 0 f = [] := rfl

theorem forBlocks_succ (n : Nat) (f : Nat → ByteSeq) : forBlocks (n + 1) f = forBlocks n f ++ f n := by
  simp [forBlocks, List.range_succ]

theorem forBlocks_length (n k : Nat) (f : Nat → ByteSeq) (h : ∀ j < n, (f j).length = k) :
    (forBlocks n f).length = k * n := by
  induction n with
  | zero => simp
  | succ n ih =>
    rw [forBlocks_succ, List.length_append, ih fun j hj => h j (by omega), h n (by omega), Nat.mul_succ]

/-- Output j of a loop whose outputs all have `k` bytes stands at `k*j`. -/
theorem forBlocks_slice (n k : Nat) (f : Nat → ByteSeq) (h : ∀ j < n, (f j).length = k) (j : Nat) (hj : j < n) :
    ((forBlocks n f).drop (k * j)).take k = f j := by
  induction n with
  | zero => omega
  | succ n ih =>
    have hlen : (forBlocks n f).length = k * n := forBlocks_length n k f fun i hi => h i (by omega)
    rw [forBlocks_succ]
    rcases Nat.lt_succ_iff_lt_or_eq.mp hj with hlt | rfl
    · have hle : k * j + k ≤ k * n := by
        have := Nat.mul_le_mul_left k hlt
        rwa [Nat.mul_succ] at this
      rw [List.drop_append_of_le_length (by omega), List.take_append_of_le_length (by rw [List.length_drop]; omega)]
      exact ih (fun i hi => h i (by omega)) hlt
    · rw [← hlen, List.drop_left]
      exact List.take_of_length_le (by rw [h j (by omega)])

theorem forBlocks_congr (n : Nat) (f g : Nat → ByteSeq) (h : ∀ j < n, f j = g j) : forBlocks n f = forBlocks n g := by
  induction n with
  | zero => rfl
  | succ n ih => rw [forBlocks_succ, forBlocks_succ, ih fun j hj => h j (by omega), h n (by omega)]

/-- Cutting a sequence of `k*n` bytes into `n` slices and appending them gives it back. -/
theorem forBlocks_slices (d : ByteSeq) (k n : Nat) (h : d.length = k * n) :
    forBlocks n (fun j => (d.drop (k * j)).take k) = d := by
  have key : ∀ m, forBlocks m (fun j => (d.drop (k * j)).take k) = d.take (k * m) := by
    intro m
    induction m with
    | zero => simp
    | succ m ih => rw [forBlocks_succ, ih, Nat.mul_succ, List.take_add]
  rw [key, ← h, List.take_length]

/-- A loop over Groups that all decode appends their outputs. -/
theorem forGroups_ok (f : Nat → Except Nat ByteSeq) (g : Nat → ByteSeq) (js : List Nat) (h : ∀ j ∈ js, f j = .ok (g j)) :
    forGroups f js = .ok (js.flatMap g) := by
  induction js with
  | nil => rfl
  | cons j js ih =>
    simp only [forGroups, h j (by simp), ih fun i hi => h i (by simp [hi]), List.flatMap_cons]

/-- What a loop over Groups answers: every Group decoded, or the first that did not. -/
theorem forGroups_cases (f : Nat → Except Nat ByteSeq) (js : List Nat) :
    (∃ g : Nat → ByteSeq, (∀ j ∈ js, f j = .ok (g j)) ∧ forGroups f js = .ok (js.flatMap g)) ∨
    (∃ (pre : List Nat) (j : Nat) (post : List Nat) (p : Nat), js = pre ++ j :: post ∧ (∀ i ∈ pre, ∃ o, f i = .ok o) ∧
      f j = .error p ∧ forGroups f js = .error p) := by
  induction js with
  | nil => exact .inl ⟨fun _ => [], by simp, rfl⟩
  | cons j js ih =>
    cases hj : f j with
    | error p => exact .inr ⟨[], j, js, p, by simp, by simp, hj, by simp [forGroups, hj]⟩
    | ok o =>
      rcases ih with ⟨g, hg, he⟩ | ⟨pre, k, post, p, rfl, hpre, hk, he⟩
      · refine .inl ⟨fun i => match f i with | .ok o => o | .error _ => [], ?_, ?_⟩
        · intro i hi
          rcases List.mem_cons.mp hi with rfl | hi
          · simp [hj]
          · simp [hg i hi]
        · apply forGroups_ok
          intro i hi
          rcases List.mem_cons.mp hi with rfl | hi
          · simp [hj]
          · simp [hg i hi]
      · exact .inr ⟨j :: pre, k, post, p, by simp, by
          intro i hi
          rcases List.mem_cons.mp hi with rfl | hi
          · exact ⟨o, hj⟩
          · exact hpre i hi, hk, by simp [forGroups, hj, he]⟩

end Sys2Proof.Machine
end

