-- ==== Sys2Proof/Laws/Codec.lean ====
section
/-! SUPPORT. The codec's arithmetic: the ROM and its inverse, byte order, the six sextets of a half, and what the decoder's loops
answer. -/

namespace Sys2Proof.Machine

theorem idx_alpha (i : Sextet) : idx (alpha i) = some i := by
  revert i; decide

theorem isAlpha_alpha (i : Sextet) : isAlpha (alpha i) = true := by
  simp [isAlpha, idx_alpha]

theorem alpha_of_idx (c : Byte) (i : Sextet) (h : idx c = some i) : alpha i = c := by
  have key : ∀ c : Byte, (idx c).all (fun i => alpha i == c) = true := by decide
  have := key c
  rw [h] at this
  simpa using this

@[simp] theorem bytesBE32_length (v : Word) : (bytesBE32 v).length = 4 := rfl

theorem emitSextets_length (n : Nat) (v : Word) : (emitSextets n v).length = n := by
  induction n generalizing v with
  | zero => rfl
  | succ n ih => simp [emitSextets, ih]

theorem encBlock_length (d : ByteSeq) (a : Nat) : (encBlock d a).length = 12 := by
  simp [encBlock, emitSextets_length, Config.halfChars]

/-- The encoder looks at its own Block only. -/
theorem encBlock_slice (d : ByteSeq) (a : Nat) : encBlock ((d.drop a).take 8) 0 = encBlock d a := by
  simp only [encBlock]
  rw [memRead4_slice _ _ _ _ (by omega), memRead4_slice _ _ _ _ (by omega)]
  simp

/-- BYTES_BE32 is the inverse of BE32, both ways. -/
theorem be32_bytesBE32 (v : Word) :
    be32 (v.extractLsb' 24 8) (v.extractLsb' 16 8) (v.extractLsb' 8 8) (v.extractLsb' 0 8) = v := by
  simp only [be32]
  ext i hi
  simp only [BitVec.getElem_append, BitVec.getElem_extractLsb']
  split
  · simp [BitVec.getLsbD_eq_getElem hi]
  · split
    · rw [show 8 + (i - 8) = i by omega]; exact BitVec.getLsbD_eq_getElem hi
    · split
      · rw [show 16 + (i - 8 - 8) = i by omega]; exact BitVec.getLsbD_eq_getElem hi
      · rw [show 24 + (i - 8 - 8 - 8) = i by omega]; exact BitVec.getLsbD_eq_getElem hi

theorem bytesBE32_be32 (b0 b1 b2 b3 : Byte) : bytesBE32 (be32 b0 b1 b2 b3) = [b0, b1, b2, b3] := by
  simp only [bytesBE32, be32, List.cons.injEq, and_true]
  refine ⟨?_, ?_, ?_, ?_⟩ <;> ext i hi <;>
    rw [BitVec.getElem_extractLsb', ← BitVec.getLsbD_eq_getElem hi] <;> simp only [BitVec.getLsbD_append] <;>
    split_ifs <;> first | omega | (congr 1; omega)

/-- Reading back the bytes of two halves. -/
theorem memRead4_halves (l r : Word) :
    memRead4 (bytesBE32 l ++ bytesBE32 r) 0 = l ∧ memRead4 (bytesBE32 l ++ bytesBE32 r) 4 = r :=
  ⟨be32_bytesBE32 l, be32_bytesBE32 r⟩

/-- A sequence of 8 bytes is the bytes of its two halves. -/
theorem bytes_of_halves (b : ByteSeq) (h : b.length = 8) : bytesBE32 (memRead4 b 0) ++ bytesBE32 (memRead4 b 4) = b := by
  match b, h with
  | [b0, b1, b2, b3, b4, b5, b6, b7], _ =>
    show bytesBE32 (be32 b0 b1 b2 b3) ++ bytesBE32 (be32 b4 b5 b6 b7) = _
    rw [bytesBE32_be32, bytesBE32_be32]; rfl

/-- What the inner loop of the decoder answers: the first byte outside the alphabet, or every index ORed in. -/
theorem accumHalf_succ (d : ByteSeq) (a n p : Nat) (v : Word) :
    accumHalf d a (n + 1) p v =
      match idx (memRead1 d (a + p)) with
      | none => .error (a + p)
      | some i => accumHalf d a n (p + 1) (v ||| i.setWidth 32 <<< (6 * p)) := rfl

/-- The inner loop stops at the lowest position that holds a byte outside the alphabet, if there is one. -/
theorem accumHalf_error (d : ByteSeq) (a n p q : Nat) (v : Word) :
    accumHalf d a n p v = .error q ↔
      ∃ k < n, q = a + p + k ∧ isAlpha (memRead1 d q) = false ∧ ∀ k' < k, isAlpha (memRead1 d (a + p + k')) = true := by
  induction n generalizing p v with
  | zero => simp [accumHalf]
  | succ n ih =>
    rw [accumHalf_succ]
    cases h : idx (memRead1 d (a + p)) with
    | none =>
      simp only [Except.error.injEq]
      constructor
      · rintro rfl
        exact ⟨0, by omega, by omega, by simp [isAlpha, h], by omega⟩
      · rintro ⟨k, -, rfl, -, hall⟩
        rcases Nat.eq_zero_or_pos k with rfl | hk
        · rfl
        · have := hall 0 hk
          simp [isAlpha, h] at this
    | some i =>
      simp only [ih]
      constructor
      · rintro ⟨k, hk, rfl, hbad, hall⟩
        refine ⟨k + 1, by omega, by omega, hbad, fun k' hk' => ?_⟩
        rcases k' with _ | k'
        · simp [isAlpha, h]
        · have := hall k' (by omega)
          rwa [show a + p + (k' + 1) = a + (p + 1) + k' by omega]
      · rintro ⟨k, hk, rfl, hbad, hall⟩
        rcases k with _ | k
        · simp [isAlpha, h] at hbad
        · refine ⟨k, by omega, by omega, hbad, fun k' hk' => ?_⟩
          have := hall (k' + 1) (by omega)
          rwa [show a + (p + 1) + k' = a + p + (k' + 1) by omega]

/-- A Group's decoding fails at the lowest of its twelve bytes that lies outside the alphabet, if there is one. -/
theorem decGroup_error (d : ByteSeq) (a q : Nat) :
    decGroup d a = .error q ↔
      ∃ k < 12, q = a + k ∧ isAlpha (memRead1 d q) = false ∧ ∀ k' < k, isAlpha (memRead1 d (a + k')) = true := by
  unfold decGroup
  cases h1 : accumHalf d a Config.halfChars 0 0#32 with
  | error p =>
    obtain ⟨k, hk, rfl, hbad, hall⟩ := (accumHalf_error ..).mp h1
    simp only [Except.error.injEq, Nat.add_zero] at *
    constructor
    · rintro rfl
      exact ⟨k, by simp [Config.halfChars] at hk; omega, rfl, hbad, hall⟩
    · rintro ⟨k', -, rfl, hbad', hall'⟩
      rcases Nat.lt_trichotomy k k' with h | h | h
      · have := hall' k h; simp_all
      · omega
      · have := hall k' h; simp_all
  | ok r =>
    have hgood : ∀ k < 6, isAlpha (memRead1 d (a + k)) = true := by
      intro k
      induction k using Nat.strong_induction_on with
      | _ k ih =>
        intro hk
        by_contra hb
        have := (accumHalf_error d a Config.halfChars 0 (a + k) 0#32).mpr
          ⟨k, hk, by omega, by simpa using hb, fun k' hk' => by simpa using ih k' hk' (by omega)⟩
        simp [h1] at this
    cases h2 : accumHalf d (a + Config.halfChars) Config.halfChars 0 0#32 with
    | error p =>
      obtain ⟨k, hk, rfl, hbad, hall⟩ := (accumHalf_error ..).mp h2
      simp only [Except.error.injEq, Nat.add_zero, Config.halfChars] at *
      constructor
      · rintro rfl
        refine ⟨6 + k, by omega, by omega, hbad, fun k' hk' => ?_⟩
        by_cases hlt : k' < 6
        · exact hgood k' hlt
        · have := hall (k' - 6) (by omega)
          rwa [show a + 6 + (k' - 6) = a + k' by omega] at this
      · rintro ⟨k', hk', rfl, hbad', hall'⟩
        rcases Nat.lt_trichotomy (6 + k) k' with h | h | h
        · have := hall' (6 + k) h; rw [← Nat.add_assoc] at this; simp_all
        · omega
        · by_cases hlt : k' < 6
          · have := hgood k' hlt; simp_all
          · have := hall (k' - 6) (by omega)
            rw [show a + 6 + (k' - 6) = a + k' by omega] at this; simp_all
    | ok l =>
      simp only [reduceCtorEq, false_iff]
      rintro ⟨k, hk, rfl, hbad, hall⟩
      by_cases hlt : k < 6
      · have := hgood k hlt; simp_all
      · have := (accumHalf_error d (a + Config.halfChars) Config.halfChars 0 (a + k) 0#32).mpr
          ⟨k - 6, by simp [Config.halfChars]; omega, by simp [Config.halfChars]; omega, hbad, fun k' hk' => by
            have := hall (6 + k') (by omega)
            simpa [Config.halfChars, Nat.add_assoc] using this⟩
        simp [h2] at this

end Sys2Proof.Machine
end

