-- ==== Sys2Proof/Laws/State.lean ====
section
/-! SUPPORT. Every field of every named update of the state, so that no proof unfolds a record update. -/

namespace Sys2Proof.Machine

section
variable (s : State) (r : Result)
@[simp] theorem State.complete_busy : (s.complete r).busy = false := rfl
@[simp] theorem State.complete_cmdL : (s.complete r).cmdL = s.cmdL := rfl
@[simp] theorem State.complete_keyL : (s.complete r).keyL = s.keyL := rfl
@[simp] theorem State.complete_dinL : (s.complete r).dinL = s.dinL := rfl
@[simp] theorem State.complete_code : (s.complete r).code = r.code := rfl
@[simp] theorem State.complete_errPos : (s.complete r).errPos = errPosWord r.pos := rfl
@[simp] theorem State.complete_dout : (s.complete r).dout = r.visible := rfl
@[simp] theorem State.complete_hostQ : (s.complete r).hostQ = s.hostQ := rfl
@[simp] theorem State.complete_history : (s.complete r).history = .completed r.code (errPosWord r.pos) r.visible :: s.history := rfl
@[simp] theorem State.complete_reads : (s.complete r).reads = s.reads := rfl
@[simp] theorem State.complete_results : (s.complete r).results = s.results := rfl
@[simp] theorem State.complete_freeCount : (s.complete r).freeCount = s.freeCount := rfl
end

section
variable (s : State) (c : BitVec 4) (p : Word) (d : ByteSeq)
@[simp] theorem State.after_busy : (s.after c p d).busy = false := rfl
@[simp] theorem State.after_cmdL : (s.after c p d).cmdL = s.cmdL := rfl
@[simp] theorem State.after_keyL : (s.after c p d).keyL = s.keyL := rfl
@[simp] theorem State.after_dinL : (s.after c p d).dinL = s.dinL := rfl
@[simp] theorem State.after_code : (s.after c p d).code = c := rfl
@[simp] theorem State.after_errPos : (s.after c p d).errPos = p := rfl
@[simp] theorem State.after_dout : (s.after c p d).dout = d := rfl
@[simp] theorem State.after_hostQ : (s.after c p d).hostQ = s.hostQ := rfl
@[simp] theorem State.after_history : (s.after c p d).history = .completed c p d :: s.history := rfl
@[simp] theorem State.after_reads : (s.after c p d).reads = s.reads := rfl
@[simp] theorem State.after_results : (s.after c p d).results = s.results := rfl
@[simp] theorem State.after_freeCount : (s.after c p d).freeCount = s.freeCount := rfl
end

section
variable (s : State)
@[simp] theorem State.resetBlock_busy : (s.resetBlock).busy = false := rfl
@[simp] theorem State.resetBlock_cmdL : (s.resetBlock).cmdL = 0x00#8 := rfl
@[simp] theorem State.resetBlock_keyL : (s.resetBlock).keyL = [] := rfl
@[simp] theorem State.resetBlock_dinL : (s.resetBlock).dinL = [] := rfl
@[simp] theorem State.resetBlock_code : (s.resetBlock).code = 0#4 := rfl
@[simp] theorem State.resetBlock_errPos : (s.resetBlock).errPos = 0#32 := rfl
@[simp] theorem State.resetBlock_dout : (s.resetBlock).dout = [] := rfl
@[simp] theorem State.resetBlock_hostQ : (s.resetBlock).hostQ = s.hostQ := rfl
@[simp] theorem State.resetBlock_history : (s.resetBlock).history = .wasReset :: s.history := rfl
@[simp] theorem State.resetBlock_reads : (s.resetBlock).reads = s.reads := rfl
@[simp] theorem State.resetBlock_results : (s.resetBlock).results = s.results := rfl
@[simp] theorem State.resetBlock_freeCount : (s.resetBlock).freeCount = s.freeCount := rfl
end

section
variable (s : State) (c : Byte) (k d : ByteSeq)
@[simp] theorem State.latch_busy : (s.latch c k d).busy = true := rfl
@[simp] theorem State.latch_cmdL : (s.latch c k d).cmdL = c := rfl
@[simp] theorem State.latch_keyL : (s.latch c k d).keyL = k := rfl
@[simp] theorem State.latch_dinL : (s.latch c k d).dinL = d := rfl
@[simp] theorem State.latch_code : (s.latch c k d).code = s.code := rfl
@[simp] theorem State.latch_errPos : (s.latch c k d).errPos = s.errPos := rfl
@[simp] theorem State.latch_dout : (s.latch c k d).dout = s.dout := rfl
@[simp] theorem State.latch_hostQ : (s.latch c k d).hostQ = s.hostQ := rfl
@[simp] theorem State.latch_history : (s.latch c k d).history = s.history := rfl
@[simp] theorem State.latch_reads : (s.latch c k d).reads = s.reads := rfl
@[simp] theorem State.latch_results : (s.latch c k d).results = s.results := rfl
@[simp] theorem State.latch_freeCount : (s.latch c k d).freeCount = s.freeCount := rfl
end

section
variable (s : State) (r : HostRead)
@[simp] theorem State.note_busy : (s.note r).busy = s.busy := rfl
@[simp] theorem State.note_cmdL : (s.note r).cmdL = s.cmdL := rfl
@[simp] theorem State.note_keyL : (s.note r).keyL = s.keyL := rfl
@[simp] theorem State.note_dinL : (s.note r).dinL = s.dinL := rfl
@[simp] theorem State.note_code : (s.note r).code = s.code := rfl
@[simp] theorem State.note_errPos : (s.note r).errPos = s.errPos := rfl
@[simp] theorem State.note_dout : (s.note r).dout = s.dout := rfl
@[simp] theorem State.note_hostQ : (s.note r).hostQ = s.hostQ := rfl
@[simp] theorem State.note_history : (s.note r).history = s.history := rfl
@[simp] theorem State.note_reads : (s.note r).reads = r :: s.reads := rfl
@[simp] theorem State.note_results : (s.note r).results = s.results := rfl
@[simp] theorem State.note_freeCount : (s.note r).freeCount = s.freeCount := rfl
end

section
variable (s : State) (r : HostResult)
@[simp] theorem State.answer_busy : (s.answer r).busy = s.busy := rfl
@[simp] theorem State.answer_cmdL : (s.answer r).cmdL = s.cmdL := rfl
@[simp] theorem State.answer_keyL : (s.answer r).keyL = s.keyL := rfl
@[simp] theorem State.answer_dinL : (s.answer r).dinL = s.dinL := rfl
@[simp] theorem State.answer_code : (s.answer r).code = s.code := rfl
@[simp] theorem State.answer_errPos : (s.answer r).errPos = s.errPos := rfl
@[simp] theorem State.answer_dout : (s.answer r).dout = s.dout := rfl
@[simp] theorem State.answer_hostQ : (s.answer r).hostQ = s.hostQ := rfl
@[simp] theorem State.answer_history : (s.answer r).history = s.history := rfl
@[simp] theorem State.answer_reads : (s.answer r).reads = s.reads := rfl
@[simp] theorem State.answer_results : (s.answer r).results = r :: s.results := rfl
@[simp] theorem State.answer_freeCount : (s.answer r).freeCount = s.freeCount := rfl
end

section
variable (s : State) (q : List HostMove)
@[simp] theorem State.load_busy : (s.load q).busy = s.busy := rfl
@[simp] theorem State.load_cmdL : (s.load q).cmdL = s.cmdL := rfl
@[simp] theorem State.load_keyL : (s.load q).keyL = s.keyL := rfl
@[simp] theorem State.load_dinL : (s.load q).dinL = s.dinL := rfl
@[simp] theorem State.load_code : (s.load q).code = s.code := rfl
@[simp] theorem State.load_errPos : (s.load q).errPos = s.errPos := rfl
@[simp] theorem State.load_dout : (s.load q).dout = s.dout := rfl
@[simp] theorem State.load_hostQ : (s.load q).hostQ = s.hostQ ++ q := rfl
@[simp] theorem State.load_history : (s.load q).history = s.history := rfl
@[simp] theorem State.load_reads : (s.load q).reads = s.reads := rfl
@[simp] theorem State.load_results : (s.load q).results = s.results := rfl
@[simp] theorem State.load_freeCount : (s.load q).freeCount = s.freeCount := rfl
end

section
variable (s : State)
@[simp] theorem State.assertReset_busy : (s.assertReset).busy = s.busy := rfl
@[simp] theorem State.assertReset_cmdL : (s.assertReset).cmdL = s.cmdL := rfl
@[simp] theorem State.assertReset_keyL : (s.assertReset).keyL = s.keyL := rfl
@[simp] theorem State.assertReset_dinL : (s.assertReset).dinL = s.dinL := rfl
@[simp] theorem State.assertReset_code : (s.assertReset).code = s.code := rfl
@[simp] theorem State.assertReset_errPos : (s.assertReset).errPos = s.errPos := rfl
@[simp] theorem State.assertReset_dout : (s.assertReset).dout = s.dout := rfl
@[simp] theorem State.assertReset_hostQ : (s.assertReset).hostQ = .reset :: s.hostQ := rfl
@[simp] theorem State.assertReset_history : (s.assertReset).history = s.history := rfl
@[simp] theorem State.assertReset_reads : (s.assertReset).reads = s.reads := rfl
@[simp] theorem State.assertReset_results : (s.assertReset).results = s.results := rfl
@[simp] theorem State.assertReset_freeCount : (s.assertReset).freeCount = s.freeCount := rfl
end

section
variable (s : State) (n w : Nat)
@[simp] theorem State.withFetchWord_busy : (s.withFetchWord n w).busy = true := rfl
@[simp] theorem State.withFetchWord_cmdL : (s.withFetchWord n w).cmdL = BitVec.ofNat 8 (w % 2 ^ n) := rfl
@[simp] theorem State.withFetchWord_keyL : (s.withFetchWord n w).keyL = s.keyL := rfl
@[simp] theorem State.withFetchWord_dinL : (s.withFetchWord n w).dinL = s.dinL := rfl
@[simp] theorem State.withFetchWord_code : (s.withFetchWord n w).code = s.code := rfl
@[simp] theorem State.withFetchWord_errPos : (s.withFetchWord n w).errPos = s.errPos := rfl
@[simp] theorem State.withFetchWord_dout : (s.withFetchWord n w).dout = s.dout := rfl
@[simp] theorem State.withFetchWord_hostQ : (s.withFetchWord n w).hostQ = [] := rfl
@[simp] theorem State.withFetchWord_history : (s.withFetchWord n w).history = s.history := rfl
@[simp] theorem State.withFetchWord_reads : (s.withFetchWord n w).reads = s.reads := rfl
@[simp] theorem State.withFetchWord_results : (s.withFetchWord n w).results = s.results := rfl
@[simp] theorem State.withFetchWord_freeCount : (s.withFetchWord n w).freeCount = s.freeCount := rfl
end

section
variable (s : State) (q : List HostMove)
@[simp] theorem State.withQ_busy : (s.withQ q).busy = s.busy := rfl
@[simp] theorem State.withQ_cmdL : (s.withQ q).cmdL = s.cmdL := rfl
@[simp] theorem State.withQ_keyL : (s.withQ q).keyL = s.keyL := rfl
@[simp] theorem State.withQ_dinL : (s.withQ q).dinL = s.dinL := rfl
@[simp] theorem State.withQ_code : (s.withQ q).code = s.code := rfl
@[simp] theorem State.withQ_errPos : (s.withQ q).errPos = s.errPos := rfl
@[simp] theorem State.withQ_dout : (s.withQ q).dout = s.dout := rfl
@[simp] theorem State.withQ_hostQ : (s.withQ q).hostQ = q := rfl
@[simp] theorem State.withQ_history : (s.withQ q).history = s.history := rfl
@[simp] theorem State.withQ_reads : (s.withQ q).reads = s.reads := rfl
@[simp] theorem State.withQ_results : (s.withQ q).results = s.results := rfl
@[simp] theorem State.withQ_freeCount : (s.withQ q).freeCount = s.freeCount := rfl
end

section
variable (s : State)
@[simp] theorem State.useFree_busy : (s.useFree).busy = s.busy := rfl
@[simp] theorem State.useFree_cmdL : (s.useFree).cmdL = s.cmdL := rfl
@[simp] theorem State.useFree_keyL : (s.useFree).keyL = s.keyL := rfl
@[simp] theorem State.useFree_dinL : (s.useFree).dinL = s.dinL := rfl
@[simp] theorem State.useFree_code : (s.useFree).code = s.code := rfl
@[simp] theorem State.useFree_errPos : (s.useFree).errPos = s.errPos := rfl
@[simp] theorem State.useFree_dout : (s.useFree).dout = s.dout := rfl
@[simp] theorem State.useFree_hostQ : (s.useFree).hostQ = s.hostQ := rfl
@[simp] theorem State.useFree_history : (s.useFree).history = s.history := rfl
@[simp] theorem State.useFree_reads : (s.useFree).reads = s.reads := rfl
@[simp] theorem State.useFree_results : (s.useFree).results = s.results := rfl
@[simp] theorem State.useFree_freeCount : (s.useFree).freeCount = if s.busy then s.freeCount + 1 else s.freeCount := rfl
end

section
@[simp] theorem State.reset_busy : State.reset.busy = false := rfl
@[simp] theorem State.reset_cmdL : State.reset.cmdL = 0x00#8 := rfl
@[simp] theorem State.reset_keyL : State.reset.keyL = [] := rfl
@[simp] theorem State.reset_dinL : State.reset.dinL = [] := rfl
@[simp] theorem State.reset_code : State.reset.code = 0#4 := rfl
@[simp] theorem State.reset_errPos : State.reset.errPos = 0#32 := rfl
@[simp] theorem State.reset_dout : State.reset.dout = [] := rfl
@[simp] theorem State.reset_hostQ : State.reset.hostQ = [] := rfl
@[simp] theorem State.reset_history : State.reset.history = [] := rfl
@[simp] theorem State.reset_reads : State.reset.reads = [] := rfl
@[simp] theorem State.reset_results : State.reset.results = [] := rfl
@[simp] theorem State.reset_freeCount : State.reset.freeCount = 0 := rfl
end

end Sys2Proof.Machine
end

