-- ==== Sys2Proof/Laws/Step.lean ====
section
/-! SUPPORT. What a step can do, said once: a COMPLETE, one move of the host, or nothing. -/

namespace Sys2Proof.Machine

/-- Every command answers a next state: COMPLETE with its own outcome. -/
theorem exec_eq (i : Instr) (s : State) :
    exec i s = .next (s.complete (runInstr Config.cipher i s.keyL s.dinL)) := by
  cases i <;> rfl

theorem complete_eq_after (s : State) (r : Result) :
    s.complete r = s.after r.code (errPosWord r.pos) r.visible := rfl

theorem errPosWord_zero : errPosWord 0 = 0#32 := rfl

theorem errPosWord_of_lt {n : Nat} (h : n < 2 ^ 32) : errPosWord n = BitVec.ofNat 32 n := if_pos h

@[simp] theorem visible_ok (out : ByteSeq) : (Result.ok out).visible = out := rfl

@[simp] theorem code_ok (out : ByteSeq) : (Result.ok out).code = codeOk := rfl

@[simp] theorem out_ok (out : ByteSeq) : (Result.ok out).out = out := rfl

@[simp] theorem pos_ok (out : ByteSeq) : (Result.ok out).pos = 0 := rfl

@[simp] theorem visible_raise (e : BitVec 4) (p : Nat) : (Result.raise e p).visible = [] := by
  unfold Result.visible; split <;> rfl

@[simp] theorem code_raise (e : BitVec 4) (p : Nat) : (Result.raise e p).code = e := rfl

@[simp] theorem out_raise (e : BitVec 4) (p : Nat) : (Result.raise e p).out = [] := rfl

@[simp] theorem pos_raise (e : BitVec 4) (p : Nat) : (Result.raise e p).pos = p := rfl

theorem complete_ok (s : State) (out : ByteSeq) : s.complete (.ok out) = s.after codeOk 0#32 out := rfl

theorem complete_raise (s : State) (e : BitVec 4) (p : Nat) :
    s.complete (.raise e p) = s.after e (errPosWord p) [] := by
  simp [complete_eq_after]

/-- With a command in flight and the host waiting, the step is that command's COMPLETE. -/
theorem step_of_busy (s : State) (hb : s.busy = true) (hw : s.hostWaits = true) : step s = exec s.fetch s := by
  simp [step, hb, hw, blockStep]

/-- The host's next move is made unless the block has a command in flight and the move waits for it. -/
theorem step_of_host (s : State) (m : HostMove) (rest : List HostMove) (hq : s.hostQ = m :: rest)
    (h : s.busy = false ∨ m.waits = false) : step s = hostStep m (s.withQ rest) := by
  rcases h with h | h <;> simp [step, State.hostWaits, hq, h]

theorem step_of_idle (s : State) (hb : s.busy = false) (hq : s.hostQ = []) : step s = .next s := by
  simp [step, hb, hq, idleStep]

/-- The three kinds of step. -/
theorem step_kinds (s : State) :
    (s.busy = true ∧ s.hostWaits = true ∧ step s = exec s.fetch s) ∨
    (s.busy = false ∧ s.hostQ = [] ∧ step s = .next s) ∨
    (∃ m rest, s.hostQ = m :: rest ∧ (s.busy = false ∨ m.waits = false) ∧ step s = hostStep m (s.withQ rest)) := by
  by_cases h : s.busy = true ∧ s.hostWaits = true
  · exact .inl ⟨h.1, h.2, step_of_busy s h.1 h.2⟩
  · cases hq : s.hostQ with
    | nil =>
      have hb : s.busy = false := by simpa [State.hostWaits, hq] using h
      exact .inr (.inl ⟨hb, rfl, step_of_idle s hb hq⟩)
    | cons m rest =>
      have hm : s.busy = false ∨ m.waits = false := by
        by_contra hn
        simp_all [State.hostWaits]
      exact .inr (.inr ⟨m, rest, rfl, hm, step_of_host s m rest hq hm⟩)

theorem steps_zero (s : State) : steps 0 s = .next s := rfl

theorem steps_of_next {s t : State} (h : step s = .next t) (n : Nat) : steps (n + 1) s = steps n t := by
  simp [steps, h]

theorem steps_of_refused {s : State} {r : Refusal} (h : step s = .refused r) (n : Nat) : steps (n + 1) s = .refused r := by
  simp [steps, h]

/-- A final state stays, however many steps are taken. -/
theorem steps_of_final {s : State} (h : s.Final) (n : Nat) : steps n s = .next s := by
  induction n with
  | zero => rfl
  | succ n ih => rw [steps_of_next (step_of_idle s h.1 h.2), ih]

/-- One step of a run, for any machine behind the host's interface. -/
theorem core_run_succ (M : Host.Core) (n : Nat) (s : M.State) :
    M.run (n + 1) s = match M.step s with
      | .next t => M.run n t
      | .fault r => .fault r
      | .refused r => .refused r := by
  cases h : M.step s <;> simp [Host.Core.run, h]

/-- A run of the model is a run of the machine behind the host's interface. -/
theorem steps_eq_run (n : Nat) (s : State) : steps n s = Sys2Proof.core.run n s := by
  induction n generalizing s with
  | zero => rfl
  | succ n ih =>
    refine Eq.trans ?_ (core_run_succ Sys2Proof.core n s).symm
    show (match step s with
      | .next t => steps n t
      | .fault r => .fault r
      | .refused r => .refused r) = _
    have hs : Sys2Proof.core.step s = step s := rfl
    generalize step s = o at hs ⊢
    rw [hs]
    cases o with
    | next t => exact ih t
    | fault r => rfl
    | refused r => rfl

/-- A host move that issues a command and goes on with `q`: COMPLETE comes next, since `q` waits. -/
theorem step_of_issued (s : State) (cmd : Byte) (key din : ByteSeq) (q : HostMove) (hq : q.waits = true) :
    step ((s.withQ (q :: s.hostQ)).latch cmd key din) =
      .next (((s.withQ (q :: s.hostQ)).latch cmd key din).complete (run Config.cipher cmd key din)) := by
  rw [step_of_busy _ rfl (by simp [State.hostWaits, hq]), exec_eq]; rfl

/-- What an ISSUE on bytes answers. -/
theorem issueBytes_eq (s : State) (cmd : Byte) (key din : ByteSeq) :
    (capacityOk cmd key din = true ∧ s.issueBytes cmd key din = .next (s.latch cmd key din)) ∨
    (capacityOk cmd key din = false ∧ s.issueBytes cmd key din = .refused .overCapacity) := by
  cases h : capacityOk cmd key din <;> simp [State.issueBytes, h]

theorem issueBytes_next {s t : State} {cmd : Byte} {key din : ByteSeq} (h : s.issueBytes cmd key din = .next t) :
    capacityOk cmd key din = true ∧ t = s.latch cmd key din := by
  rcases issueBytes_eq s cmd key din with ⟨hc, he⟩ | ⟨_, he⟩ <;> rw [he] at h
  · cases h; exact ⟨hc, rfl⟩
  · cases h

@[simp] theorem operand_bytes (s : State) (b : ByteSeq) : s.operand (.bytes b) = some b := rfl

/-- What `@` denotes does not depend on the host's pending moves. -/
@[simp] theorem prevOk_withQ (s : State) (q : List HostMove) : (s.withQ q).prevOk = s.prevOk := rfl

@[simp] theorem operand_withQ (s : State) (q : List HostMove) (o : Operand) : (s.withQ q).operand o = s.operand o := by
  cases o <;> rfl

/-- After a completion with CODE = 0, `@` is its output; after one with another code it denotes nothing (R72). -/
theorem operand_prev_complete (s : State) (r : Result) :
    (s.complete r).operand .prev = if r.code = codeOk then some r.out else none := by
  by_cases h : r.code = codeOk <;> simp [State.operand, State.prevOk, State.complete, Result.visible, h]

/-- `@` denotes DOUT where R72 allows it, and nothing elsewhere. -/
theorem operand_eq (s : State) (o : Operand) :
    (s.operand o = some (o.given s.dout) ∧ (o = .prev → s.prevOk = true)) ∨
    (s.operand o = none ∧ o = .prev ∧ s.prevOk = false) := by
  cases o with
  | bytes b => exact .inl ⟨rfl, nofun⟩
  | prev => cases h : s.prevOk <;> simp [State.operand, Operand.given, h]

/-- What an ISSUE of a program line answers. -/
theorem issue_eq (s : State) (cmd : Byte) (key din : Operand) :
    (s.issue cmd key din = s.issueBytes cmd (key.given s.dout) (din.given s.dout) ∧
      (key = .prev ∨ din = .prev → s.prevOk = true)) ∨
    (s.issue cmd key din = .refused .noPreviousOutput ∧ (key = .prev ∨ din = .prev) ∧ s.prevOk = false) := by
  rcases operand_eq s key with ⟨hk, pk⟩ | ⟨hk, rfl, ho⟩
  · rcases operand_eq s din with ⟨hd, pd⟩ | ⟨hd, rfl, ho⟩
    · exact .inl ⟨by simp [State.issue, hk, hd], fun h => h.elim pk pd⟩
    · exact .inr ⟨by simp [State.issue, hk, hd], .inr rfl, ho⟩
  · exact .inr ⟨by simp [State.issue, hk], .inl rfl, ho⟩

/-- What a host step on an operand answers. -/
theorem withOperand_eq (s : State) (o : Operand) (f : ByteSeq → Host.Outcome State Fault Refusal) :
    (s.withOperand o f = f (o.given s.dout) ∧ (o = .prev → s.prevOk = true)) ∨
    (s.withOperand o f = .refused .noPreviousOutput ∧ o = .prev ∧ s.prevOk = false) := by
  rcases operand_eq s o with ⟨h, p⟩ | ⟨h, p⟩ <;> simp_all [State.withOperand]

theorem withOperand_next {s t : State} {o : Operand} {f : ByteSeq → Host.Outcome State Fault Refusal}
    (h : s.withOperand o f = .next t) : f (o.given s.dout) = .next t := by
  rcases withOperand_eq s o f with ⟨he, _⟩ | ⟨he, _⟩ <;> rw [he] at h
  · exact h
  · cases h

theorem issue_next {s t : State} {cmd : Byte} {key din : Operand} (h : s.issue cmd key din = .next t) :
    ∃ k d, capacityOk cmd k d = true ∧ t = s.latch cmd k d := by
  rcases issue_eq s cmd key din with ⟨he, _⟩ | ⟨he, _⟩ <;> rw [he] at h
  · exact ⟨_, _, issueBytes_next h⟩
  · cases h

/-- What a move of the host does, when it answers a next state: latch a command that fits, note a read, answer a framing operation,
reset the block, or nothing. -/
theorem hostStep_next {m : HostMove} {s t : State} (h : hostStep m s = .next t) :
    (∃ q c k d, capacityOk c k d = true ∧ t = (s.withQ (q ++ s.hostQ)).latch c k d) ∨
    (∃ r, t = s.note r ∨ t = (s.note r).useFree) ∨
    (∃ r, t = s.answer r) ∨
    t = s.resetBlock ∨ t = s := by
  have issued : ∀ {c k d q}, s.issueThen c k d q = .next t →
      ∃ q c k d, capacityOk c k d = true ∧ t = (s.withQ (q ++ s.hostQ)).latch c k d := fun {c _ _ q} h =>
    let ⟨k, d, hc⟩ := issue_next h
    ⟨[q], c, k, d, hc⟩
  cases m with
  | issue cmd key din =>
    obtain ⟨k, d, hc, rfl⟩ := issue_next h
    exact .inl ⟨[], cmd, k, d, hc, rfl⟩
  | waitIdle => cases h; exact .inr (.inr (.inr (.inr rfl)))
  | readStatus => cases h; exact .inr (.inl ⟨_, .inr rfl⟩)
  | readErrPos =>
    simp only [hostStep, State.readErrPos] at h
    split at h <;> cases h
    exact .inr (.inl ⟨_, .inl rfl⟩)
  | readOutLen =>
    simp only [hostStep, State.readOutLen] at h
    split at h <;> cases h
    exact .inr (.inl ⟨_, .inl rfl⟩)
  | readDout i =>
    simp only [hostStep, State.readDout] at h
    split at h
    · cases h
    · split at h <;> cases h
      exact .inr (.inl ⟨_, .inl rfl⟩)
  | reset => cases h; exact .inr (.inr (.inr (.inl rfl)))
  | encrypt key m => exact .inl (issued h)
  | encryptEcb key => exact .inl (issued h)
  | encryptEnc =>
    simp only [hostStep, State.encryptEncStep] at h
    split at h
    · cases h; exact .inr (.inr (.inl ⟨_, rfl⟩))
    · exact .inl (issued h)
  | encryptTag => cases h; exact .inr (.inr (.inl ⟨_, rfl⟩))
  | decrypt key t =>
    simp only [hostStep, State.decryptStart] at h
    replace h := withOperand_next h
    split at h
    · exact .inl (issued h)
    · cases h; exact .inr (.inr (.inl ⟨_, rfl⟩))
  | decryptEcb key =>
    simp only [hostStep, State.decryptEcbStep] at h
    split at h
    · cases h; exact .inr (.inr (.inl ⟨_, rfl⟩))
    · exact .inl (issued h)
  | decryptTrim =>
    simp only [hostStep, State.decryptTrimStep] at h
    split at h <;> (cases h; exact .inr (.inr (.inl ⟨_, rfl⟩)))
  | isEnc t =>
    simp only [hostStep, State.isEncStep] at h
    cases withOperand_next h
    exact .inr (.inr (.inl ⟨_, rfl⟩))

end Sys2Proof.Machine
end

