-- ==== Sys2Proof/Laws/Commands.lean ====
section
/-! SUPPORT. What each command can answer, said once, and the lengths of the outputs (10_state.md rule R33). -/

namespace Sys2Proof.Machine

theorem encbCmd_cases (d : ByteSeq) : (∃ o, encbCmd d = .ok o) ∨ encbCmd d = .raise codeInvalidInputLength 0 := by
  unfold encbCmd; split <;> simp

theorem encCmd_cases (d : ByteSeq) : (∃ o, encCmd d = .ok o) ∨ encCmd d = .raise codeInvalidInputLength 0 := by
  unfold encCmd; split <;> simp

theorem decodeResult_cases (x : Except Nat ByteSeq) :
    (∃ o, decodeResult x = .ok o) ∨ ∃ p, decodeResult x = .raise codeInvalidCharacter p := by
  cases x <;> simp [decodeResult]

theorem decbCmd_cases (d : ByteSeq) :
    (∃ o, decbCmd d = .ok o) ∨ decbCmd d = .raise codeInvalidEncodingLength 0 ∨
      ∃ p, decbCmd d = .raise codeInvalidCharacter p := by
  unfold decbCmd
  split
  · exact .inr (.inl rfl)
  · rcases decodeResult_cases (decGroup d 0) with h | h
    · exact .inl h
    · exact .inr (.inr h)

theorem decCmd_cases (d : ByteSeq) :
    (∃ o, decCmd d = .ok o) ∨ decCmd d = .raise codeInvalidEncodingLength 0 ∨
      ∃ p, decCmd d = .raise codeInvalidCharacter p := by
  unfold decCmd
  split
  · exact .inr (.inl rfl)
  · rcases decodeResult_cases (forGroups _ _) with h | h
    · exact .inl h
    · exact .inr (.inr h)

theorem ecbCmd_cases (k : Bool) (f : Block → Block) (d : ByteSeq) :
    (∃ o, ecbCmd k f d = .ok o) ∨ ecbCmd k f d = .raise codeInvalidInputLength 0 ∨
      ecbCmd k f d = .raise codeCipherKeyError 0 := by
  unfold ecbCmd
  split
  · exact .inr (.inl rfl)
  · split
    · exact .inr (.inr rfl)
    · exact .inl ⟨_, rfl⟩

/-- Every command ends OK or raises a code from 1 to 5, with a position only for InvalidCharacter. -/
theorem runInstr_cases (c : Cipher) (i : Instr) (k d : ByteSeq) :
    (∃ o, runInstr c i k d = .ok o) ∨
    ∃ e p, runInstr c i k d = .raise e p ∧ e ≠ codeOk ∧ e.toNat ≤ 5 ∧ (e ≠ codeInvalidCharacter → p = 0) := by
  have bad : ∀ {r : Result} {p : Nat}, r = .raise codeInvalidCharacter p →
      ∃ e p, r = .raise e p ∧ e ≠ codeOk ∧ e.toNat ≤ 5 ∧ (e ≠ codeInvalidCharacter → p = 0) :=
    fun h => ⟨_, _, h, by decide, by decide, fun h => absurd rfl h⟩
  cases i with
  | pad => exact .inl ⟨_, rfl⟩
  | encb => exact (encbCmd_cases d).imp id fun h => ⟨_, _, h, by decide⟩
  | enc => exact (encCmd_cases d).imp id fun h => ⟨_, _, h, by decide⟩
  | decb =>
    rcases decbCmd_cases d with h | h | ⟨p, h⟩
    · exact .inl h
    · exact .inr ⟨_, _, h, by decide⟩
    · exact .inr (bad h)
  | dec =>
    rcases decCmd_cases d with h | h | ⟨p, h⟩
    · exact .inl h
    · exact .inr ⟨_, _, h, by decide⟩
    · exact .inr (bad h)
  | ecbe =>
    rcases ecbCmd_cases (c.keyOk k) (c.encBlk k) d with h | h | h
    · exact .inl h
    · exact .inr ⟨_, _, h, by decide⟩
    · exact .inr ⟨_, _, h, by decide⟩
  | ecbd =>
    rcases ecbCmd_cases (c.keyOk k) (c.decBlk k) d with h | h | h
    · exact .inl h
    · exact .inr ⟨_, _, h, by decide⟩
    · exact .inr ⟨_, _, h, by decide⟩
  | illegalCommand b => exact .inr ⟨_, _, rfl, by decide⟩

/-- A command's output is what COMPLETE makes visible: an error has none. -/
theorem runInstr_visible (c : Cipher) (i : Instr) (k d : ByteSeq) : (runInstr c i k d).visible = (runInstr c i k d).out := by
  rcases runInstr_cases c i k d with ⟨o, h⟩ | ⟨e, p, h, -⟩ <;> rw [h] <;> simp

theorem fits_nil : fits [] = true := by
  unfold fits fitsIn; split <;> simp

/-- A shorter sequence fits where a longer one does. -/
theorem fits_of_le {a b : ByteSeq} (h : a.length ≤ b.length) (hb : fits b = true) : fits a = true := by
  revert hb
  unfold fits fitsIn
  split
  · simp
  · simp; omega

theorem pad8_of_mod {d : ByteSeq} (h : d.length % 8 = 0) : pad8 d = d := by
  simp [pad8, Config.padBlock, h]

theorem pad8_mod (d : ByteSeq) : (pad8 d).length % 8 = 0 := by
  by_cases h : d.length % 8 = 0
  · rw [pad8_of_mod h]; exact h
  · simp [pad8, Config.padBlock, h]; omega

theorem length_le_pad8 (d : ByteSeq) : d.length ≤ (pad8 d).length := by
  unfold pad8
  simp only
  split <;> simp

theorem ecbCmd_out_length_le (k : Bool) (f : Block → Block) (d : ByteSeq) : (ecbCmd k f d).out.length ≤ d.length := by
  unfold ecbCmd
  split
  · simp
  · split
    · simp
    · rw [out_ok, forBlocks_length _ 8 _ fun j _ => by simp, Config.blockBytes]
      omega

/-- A Group that decodes gives 8 bytes. -/
theorem decGroup_length {d : ByteSeq} {a : Nat} {o : ByteSeq} (h : decGroup d a = .ok o) : o.length = 8 := by
  unfold decGroup at h
  split at h
  · cases h
  · split at h <;> cases h
    simp [bytesBE32]

end Sys2Proof.Machine
end

