-- ==== Sys2Proof/Laws/PerInstr.lean ====
section
/-! SUPPORT. The family OneByte: what every command's encoding looks like, command by command (30_encoding.md rules R60, R61,
R65). -/

namespace Sys2Proof.Laws.OneByte

/-- The encoding is one byte, and for a well-formed command that byte lies in the illegal space exactly when the command is an illegal
one; a command of the opcode map has RSV = 0. -/
def Statement (i : Instr) : Prop :=
  (encode i).length = 1 ∧
  (i.wf = true →
    (isIllegalByte (encodeByte i) = true ↔ ∃ b, i = .illegalCommand b) ∧
    (isIllegalByte (encodeByte i) = false → rsvOf (encodeByte i) = 0#4))

theorem pad : Statement .pad := ⟨rfl, fun _ => ⟨by simp [isIllegalByte, encodeByte], fun _ => rfl⟩⟩
theorem encb : Statement .encb := ⟨rfl, fun _ => ⟨by simp [isIllegalByte, encodeByte], fun _ => rfl⟩⟩
theorem decb : Statement .decb := ⟨rfl, fun _ => ⟨by simp [isIllegalByte, encodeByte], fun _ => rfl⟩⟩
theorem enc : Statement .enc := ⟨rfl, fun _ => ⟨by simp [isIllegalByte, encodeByte], fun _ => rfl⟩⟩
theorem dec : Statement .dec := ⟨rfl, fun _ => ⟨by simp [isIllegalByte, encodeByte], fun _ => rfl⟩⟩
theorem ecbe : Statement .ecbe := ⟨rfl, fun _ => ⟨by simp [isIllegalByte, encodeByte], fun _ => rfl⟩⟩
theorem ecbd : Statement .ecbd := ⟨rfl, fun _ => ⟨by simp [isIllegalByte, encodeByte], fun _ => rfl⟩⟩
theorem illegalCommand (b : Byte) : Statement (.illegalCommand b) :=
  ⟨rfl, fun h => ⟨⟨fun _ => ⟨b, rfl⟩, fun _ => h⟩, fun h' => by simp_all [Instr.wf, encodeByte]⟩⟩

end Sys2Proof.Laws.OneByte
end

