-- ==== Sys2Proof/Tests/Slice0.lean ====
section
/-! SUPPORT. Small tests of the model against the spec's own vectors (95_test_vectors.md) and encodings (30_encoding.md), and a witness
for the hypotheses of every statement that has some. -/

namespace Sys2Proof.Tests

open Sys2Proof.Machine

/-! ### Well-formedness and encoding -/

/-- Each byte of the opcode map makes an illegal command ill formed (R64). -/
theorem test_wf_refuses_command_bytes :
    [0x01#8, 0x02#8, 0x03#8, 0x04#8, 0x05#8, 0x06#8, 0x07#8].all (fun b => !(Instr.illegalCommand b).wf) = true := by decide

theorem test_wf_takes_reserved_bytes :
    [0x00#8, 0x08#8, 0x0F#8, 0x10#8, 0x11#8, 0xFF#8].all (fun b => (Instr.illegalCommand b).wf) = true := by decide

/-- R60, R61: RSV = 0000, OPC as in the map. -/
theorem test_decode_pad : decode [0b0000_0001#8] = .ok (.pad, []) := by decide
theorem test_decode_encb : decode [0b0000_0010#8] = .ok (.encb, []) := by decide
theorem test_decode_decb : decode [0b0000_0011#8] = .ok (.decb, []) := by decide
theorem test_decode_enc : decode [0b0000_0100#8] = .ok (.enc, []) := by decide
theorem test_decode_dec : decode [0b0000_0101#8] = .ok (.dec, []) := by decide
theorem test_decode_ecbe : decode [0b0000_0110#8] = .ok (.ecbe, []) := by decide
theorem test_decode_ecbd : decode [0b0000_0111#8, 0xAA#8] = .ok (.ecbd, [0xAA#8]) := by decide
/-- R63: "0x11 is IllegalCommand and is not PAD". -/
theorem test_decode_illegal : decode [0b0001_0001#8] = .ok (.illegalCommand 0x11#8, []) := by decide
theorem test_decode_needs_a_byte : decode [] = .error .noCommandByte := by decide
theorem test_decodeTableWord : decodeTableWord 8 0x06 = some .ecbe ∧ decodeTableWord 16 0x0106 = none := by decide

/-! ### The commands, against 95_test_vectors.md -/

/-- The cipher TOY of 95_test_vectors.md section 2. -/
def toy : Cipher where
  keyOk k := k.length == 8
  encBlk k b := #v[b[0] ^^^ k.getD 0 0, b[1] ^^^ k.getD 1 0, b[2] ^^^ k.getD 2 0, b[3] ^^^ k.getD 3 0,
    b[4] ^^^ k.getD 4 0, b[5] ^^^ k.getD 5 0, b[6] ^^^ k.getD 6 0, b[7] ^^^ k.getD 7 0]
  decBlk k b := #v[b[0] ^^^ k.getD 0 0, b[1] ^^^ k.getD 1 0, b[2] ^^^ k.getD 2 0, b[3] ^^^ k.getD 3 0,
    b[4] ^^^ k.getD 4 0, b[5] ^^^ k.getD 5 0, b[6] ^^^ k.getD 6 0, b[7] ^^^ k.getD 7 0]

/-- The key K of 95_test_vectors.md. -/
def keyK : ByteSeq := [0x01#8, 0x02#8, 0x03#8, 0x04#8, 0x05#8, 0x06#8, 0x07#8, 0x08#8]

/-- A small state: a command byte and an input in flight. -/
def inFlight (cmd : Byte) (din : ByteSeq) : State := State.reset.latch cmd [] din

/-- V12. -/
theorem test_pad_one_byte : padCmd (ascii "a") = .ok [0x61#8, 0#8, 0#8, 0#8, 0#8, 0#8, 0#8, 0#8] := by decide
/-- V14. -/
theorem test_pad_whole_block : padCmd (ascii "egg spam") = .ok (ascii "egg spam") := by decide
/-- V24. -/
theorem test_encb_order :
    encbCmd [0x01#8, 0x23#8, 0x45#8, 0x67#8, 0x89#8, 0xAB#8, 0xCD#8, 0xEF#8] = .ok (ascii "JRWE70BjO6/.") := by decide
/-- V28. -/
theorem test_encb_two_blocks : encbCmd (ascii "egg spamegg spam") = .raise codeInvalidInputLength 0 := by decide
/-- V35. -/
theorem test_decb_masks :
    decbCmd (ascii "zzzzzzzzzzzz") = .ok [0x65#8, 0x96#8, 0x59#8, 0x65#8, 0x65#8, 0x96#8, 0x59#8, 0x65#8] := by decide
/-- V41. -/
theorem test_decb_length_first : decbCmd (ascii "H34qN/uqQnz!!") = .raise codeInvalidEncodingLength 0 := by decide
/-- V44. -/
theorem test_enc_two_blocks : encCmd (ascii "egg spamThe quic") = .ok (ascii "H34qN/uqQnz/xzkrL/ui4oi/") := by decide
/-- V45. -/
theorem test_enc_seven : encCmd (ascii "abcdefg") = .raise codeInvalidInputLength 0 := by decide
/-- V49. -/
theorem test_dec_two_groups : decCmd (ascii "H34qN/uqQnz/xzkrL/ui4oi/") = .ok (ascii "egg spamThe quic") := by decide
/-- V51. -/
theorem test_dec_second_group : decCmd (ascii "H34qN/uqQnz/xzkrL/u!4oi/") = .raise codeInvalidCharacter 19 := by decide
/-- V60. -/
theorem test_ecbe_identical_blocks : ecbeCmd toy keyK (ascii "egg spamegg spam") = .ok (ascii "ded$vvfeded$vvfe") := by decide
/-- V58. -/
theorem test_ecbe_key_without_blocks : ecbeCmd toy (ascii "1234567") [] = .raise codeCipherKeyError 0 := by decide
/-- V56. -/
theorem test_ecbd_inverse : ecbdCmd toy keyK (ascii "ded$vvfe") = .ok (ascii "egg spam") := by decide
/-- V61. -/
theorem test_ecbd_length : ecbdCmd toy keyK (ascii "abc") = .raise codeInvalidInputLength 0 := by decide
/-- V70. -/
theorem test_illegal_code : run toy 0x11#8 [] (ascii "egg spam") = ⟨5#4, 0, []⟩ := by decide

/-- V96: one step of the machine on a DECB that fails, and the STATUS it leaves. -/
theorem test_step_bad_character :
    (match step (inFlight 0x03#8 (ascii "H34qN/uqQnz!")) with
      | .next t => some (t.status, t.errPos, t.dout)
      | _ => none) = some (0x00000003#32, 11#32, []) := by decide

/-- P5: the host's read of DOUT[0] before COMPLETE faults (R205). -/
theorem test_read_before_complete :
    (match step ((inFlight 0x01#8 (ascii "a")).withQ [.readDout 0]) with
      | .fault r => some r
      | _ => none) = some (.readWhileBusy .dout) := by decide

/-! ### The host's framing and programs -/

/-- V73. -/
theorem test_encrypt : encryptPure toy keyK (ascii "egg spam") = .bytes (ascii "+OK znArQ/yekny/") := by decide
/-- V78. -/
theorem test_decrypt_mcps : decryptPure toy keyK (ascii "mcps znArQ/yekny/") = .bytes (ascii "egg spam") := by decide
/-- V86. -/
theorem test_decrypt_malformed_first : decryptPure toy (ascii "1234567") (ascii "+OK foo") = .malformedCiphertext := by decide
/-- V90: nine zero bytes are trimmed, no cap of seven. -/
theorem test_trim_has_no_cap : trim (ascii "ab" ++ List.replicate 9 0#8) = ascii "ab" := by decide
/-- A line of P2's form (R72). -/
theorem test_parse_ecbe :
    parseLine (ascii "l1: ECBE x'0102', @ ; c") = .ok (some (.command .ecbe (.bytes [0x01#8, 0x02#8]) .prev)) := by decide
/-- A line of P3. -/
theorem test_parse_byte :
    parseLine (ascii ".byte 0x11, \"egg\"") = .ok (some (.rawByte 0x11#8 (.bytes (ascii "egg")))) := by decide

/-- R73: the pseudo-instructions take any operands of R72, `@` among them. -/
theorem test_parse_pseudo_prev :
    parseLine (ascii "ENCRYPT \"k\", @") = .ok (some (.encrypt (.bytes (ascii "k")) .prev)) ∧
    parseLine (ascii "DECRYPT @, @") = .ok (some (.decrypt .prev .prev)) ∧
    parseLine (ascii "ISENC @") = .ok (some (.isEnc .prev)) := by decide
/-- R73: `ENCRYPT key, @` starts with `PAD @`. -/
theorem test_encrypt_prev_pads_dout :
    (match step ((State.reset.after 0#4 0#32 []).withQ [.encrypt (.bytes keyK) .prev]) with
      | .next t => some (t.cmdL, t.keyL, t.dinL, t.hostQ)
      | _ => none) = some (0x01#8, [], [], [.encryptEcb (.bytes keyK)]) := by
  have h : (run Config.cipher (encodeByte .pad) [] []).out = [] := rfl
  rw [step_of_host _ _ [] rfl (.inl rfl)]
  simp [hostStep, State.encryptStart, State.issueThen, State.issue, State.operand, State.prevOk, State.issueBytes, capacityOk,
    fits_nil, codeOk, State.after, h]
  rfl

/-! ### Witnesses: for every statement with hypotheses, a state and operands that meet them -/

theorem witness_decode_and_encode_agree : (Instr.illegalCommand 0x08#8).wf = true ∧ Instr.pad.wf = true := by decide
theorem witness_every_byte : (1 ≤ (0x07#8).toNat ∧ (0x07#8).toNat ≤ 7) ∧ 8 ≤ (0x08#8).toNat ∧ (0x00#8).toNat = 0 := by decide
theorem witness_reserved_bytes :
    ((0x0F#8).extractLsb' 4 4 = 0#4 ∧ (0x0F#8).extractLsb' 0 4 = 0xF#4) ∧ (0x11#8).extractLsb' 4 4 ≠ 0#4 := by decide
theorem witness_in_flight :
    (inFlight 0x01#8 (ascii "a")).busy = true ∧ (inFlight 0x01#8 (ascii "a")).hostWaits = true := by decide
theorem witness_complete_idle : ∃ s t : State, s.busy = false ∧ step s = .next t :=
  ⟨State.reset, State.reset, rfl, rfl⟩
theorem witness_every_command_ends :
    ∃ s t : State, s.busy = true ∧ step s = .next t ∧ (∀ m ∈ s.hostQ, m.readsResult = false) ∧ s.hostQ ≠ [] :=
  ⟨(inFlight 0x00#8 []).withQ [.isEnc (.bytes [])], _, rfl, rfl, by decide, by decide⟩
theorem witness_idle : State.reset.Final ∧ (inFlight 0x01#8 []).busy = true := ⟨⟨rfl, rfl⟩, rfl⟩
theorem witness_encb :
    (inFlight 0x02#8 (ascii "egg spam")).dinL = [0x65#8, 0x67#8, 0x67#8, 0x20#8, 0x73#8, 0x70#8, 0x61#8, 0x6D#8] ∧
    (inFlight 0x02#8 (ascii "abcdefg")).dinL.length ≠ 8 := by decide
theorem witness_enc :
    (inFlight 0x04#8 []).dinL.length % 8 = 0 ∧ (inFlight 0x04#8 (ascii "abcdefghi")).dinL.length % 8 ≠ 0 := by decide
theorem witness_decb :
    (inFlight 0x03#8 (ascii "H34qN/uqQnz")).dinL.length ≠ 12 ∧
    ((inFlight 0x03#8 (ascii "H34qN/uqQnz!")).dinL.length = 12 ∧ firstBad (ascii "H34qN/uqQnz!") = some 11) ∧
    ((inFlight 0x03#8 (ascii "ZZZZZZZZZZZZ")).dinL.length = 12 ∧ firstBad (ascii "ZZZZZZZZZZZZ") = none) := by decide
theorem witness_dec :
    (inFlight 0x05#8 (ascii "foo")).dinL.length % 12 ≠ 0 ∧
    ((ascii "H34qN/uqQnz/xzkrL/u!4oi/").length % 12 = 0 ∧ firstBad (ascii "H34qN/uqQnz/xzkrL/u!4oi/") = some 19) ∧
    (([] : ByteSeq).length % 12 = 0 ∧ firstBad [] = none) := by decide
theorem witness_frame :
    ∃ (i : Instr) (s s' t t' : State), s.keyL = s'.keyL ∧ s.dinL = s'.dinL ∧ exec i s = .next t ∧ exec i s' = .next t' :=
  ⟨.pad, inFlight 0x01#8 (ascii "a"), (inFlight 0x02#8 (ascii "a")).answer .cipherKeyError, _, _, rfl, rfl, rfl, rfl⟩
theorem witness_frame_read :
    ∃ s t : State, hostStep .readErrPos s = .next t ∧ HostMove.readErrPos.readsResult = true :=
  ⟨State.reset, _, rfl, rfl⟩
theorem witness_first_cause :
    isEncText (ascii "+OK foo") = true ∧ (decCmd (stripTag (ascii "+OK foo"))).code ≠ 0#4 := by decide
theorem witness_only_ecb : usesCipher .pad = false := by decide
theorem witness_alphabet_group : (ascii "ZZZZZZZZZZZZ").length = 12 ∧ (ascii "ZZZZZZZZZZZZ").all isAlpha = true := by decide
/-- Two Groups that differ in character 11 only, indices 0 and 4 (V29, V33). -/
theorem witness_non_canonical :
    (ascii "............").length = 12 ∧ (ascii "...........2").length = 12 ∧
    (ascii "............").all isAlpha = true ∧ (ascii "...........2").all isAlpha = true ∧
    (∀ k < 12, k ≠ 5 → k ≠ 11 → memRead1 (ascii "............") k = memRead1 (ascii "...........2") k) ∧
    idxNat (memRead1 (ascii "............") 5) % 4 = idxNat (memRead1 (ascii "...........2") 5) % 4 ∧
    idxNat (memRead1 (ascii "............") 11) % 4 = idxNat (memRead1 (ascii "...........2") 11) % 4 := by decide
theorem witness_decode_of_encode : (ascii "egg spamThe quic").length % 8 = 0 := by decide
theorem witness_block : (ascii "egg spam").length = 8 := by decide
theorem witness_enc_outputs :
    (encCmd (ascii "egg spamegg spam")).code = 0#4 ∧ (encCmd (ascii "The quicegg spam")).code = 0#4 ∧
    1 < (ascii "egg spamegg spam").length / 8 ∧ 1 < (ascii "The quicegg spam").length / 8 ∧
    ((ascii "egg spamegg spam").drop 8).take 8 = ((ascii "The quicegg spam").drop 8).take 8 := by decide
theorem witness_dec_outputs :
    (decCmd (ascii "H34qN/uqQnz/ZZZZZ1ZZZZZ1")).code = 0#4 ∧ (decCmd (ascii "............ZZZZZ1ZZZZZ1")).code = 0#4 ∧
    1 < (ascii "H34qN/uqQnz/ZZZZZ1ZZZZZ1").length / 12 ∧ 1 < (ascii "............ZZZZZ1ZZZZZ1").length / 12 ∧
    ((ascii "H34qN/uqQnz/ZZZZZ1ZZZZZ1").drop 12).take 12 = ((ascii "............ZZZZZ1ZZZZZ1").drop 12).take 12 := by decide
theorem witness_strict :
    (∃ c ∈ ascii "H34qN/ uqQnz", idx c = none) ∧ (ascii "H34qN/ uqQnz").length = 12 ∧ (ascii "H34qN/ uqQnz").length % 12 = 0 := by
  decide
theorem witness_ecb_blocks :
    (ascii "egg spamegg spam").length % 8 = 0 ∧ toy.keyOk keyK = true ∧ 1 < (ascii "egg spamegg spam").length / 8 := by decide
theorem witness_rejected_key :
    (([] : ByteSeq).length % 8 = 0 ∧ toy.keyOk (ascii "1234567") = false) ∧ (ascii "abc").length % 8 ≠ 0 := by decide
theorem witness_ecb_round_trip : toy.Inverse ∧ toy.keyOk keyK = true ∧ (ascii "egg spam").length % 8 = 0 := by
  refine ⟨fun k b _ => ?_, by decide, by decide⟩
  apply Vector.ext
  intro i hi
  simp only [toy, Vector.getElem_mk, List.getElem_toArray]
  match i, hi with
  | 0, _ | 1, _ | 2, _ | 3, _ | 4, _ | 5, _ | 6, _ | 7, _ => simp
theorem witness_issue :
    (State.reset.withQ [.issue 0x01#8 (.bytes []) (.bytes (ascii "a"))]).busy = false ∧
    ((inFlight 0x01#8 []).withQ [.issue 0x01#8 (.bytes []) (.bytes (ascii "a"))]).busy = true := by decide
/-- A state for each of the four places of `@`: after OK, after an error, with no command before, and after a reset; `@` as the
input, as the key beside an input, and as both. -/
theorem witness_previous_output :
    (∃ s : State, s.busy = false ∧ s.hostQ = [.issue 0x06#8 (.bytes keyK) .prev] ∧ s.code = 0#4 ∧
      s.history = [.completed 0#4 0#32 []]) ∧
    (∃ s : State, s.busy = false ∧ s.hostQ = [.issue 0x06#8 .prev (.bytes [])] ∧ s.code ≠ 0#4 ∧
      s.history = [.completed 1#4 0#32 []]) ∧
    (∃ s : State, s.busy = false ∧ s.hostQ = [.issue 0x07#8 .prev .prev] ∧ s.history = []) ∧
    (∃ s : State, s.busy = false ∧ s.hostQ = [.issue 0x04#8 (.bytes []) .prev] ∧
      s.history = [.wasReset, .completed 0#4 0#32 []]) :=
  ⟨⟨(State.reset.after 0#4 0#32 []).withQ [.issue 0x06#8 (.bytes keyK) .prev], by decide⟩,
   ⟨(State.reset.after 1#4 0#32 []).withQ [.issue 0x06#8 .prev (.bytes [])], by decide⟩,
   ⟨State.reset.withQ [.issue 0x07#8 .prev .prev], by decide⟩,
   ⟨(State.reset.after 0#4 0#32 []).resetBlock.withQ [.issue 0x04#8 (.bytes []) .prev], by decide⟩⟩
theorem witness_reads_busy :
    ((inFlight 0x01#8 []).withQ [.readStatus]).busy = true ∧ ((inFlight 0x01#8 []).withQ [.readErrPos]).busy = true ∧
    ((inFlight 0x01#8 []).withQ [.readOutLen]).busy = true ∧ ((inFlight 0x01#8 []).withQ [.readDout 0]).busy = true := by decide
/-- DOUT of one byte: index 0 is read, index 1 is past the end. -/
theorem witness_reads_idle :
    ((State.reset.after 0#4 0#32 [0x61#8]).withQ [.readDout 0]).busy = false ∧
    0 < (State.reset.after 0#4 0#32 [0x61#8]).dout.length ∧ (State.reset.after 0#4 0#32 [0x61#8]).dout.length ≤ 1 ∧
    (State.reset.after 0#4 0#32 [0x61#8]).dout.length < 2 ^ 32 := by decide
theorem witness_refusal : ∃ (s : State) (r : Refusal), step s = .refused r :=
  ⟨State.reset.withQ [.issue 0x01#8 (.bytes []) .prev], .noPreviousOutput, rfl⟩
theorem witness_broken_duty :
    ¬ ((inFlight 0x01#8 []).withQ [.readErrPos]).dutiful ∧ (State.reset.withQ [.readErrPos]).dutiful :=
  ⟨by simp [State.dutiful, inFlight], by simp [State.dutiful]⟩
theorem witness_invariant : ∃ s t : State, s.Inv ∧ step s = .next t :=
  ⟨(State.reset.after 3#4 11#32 []).withQ [.waitIdle], (State.reset.after 3#4 11#32 []).withQ [],
   ⟨by decide, fun h => absurd rfl h, fun _ => rfl, fits_nil, fits_nil, fits_nil, fun h => Bool.noConfusion h, ⟨rfl, rfl, rfl⟩,
    by simp [RunEvent.legal, codeInvalidCharacter, fits_nil]⟩, rfl⟩
theorem witness_is_enc :
    (State.reset.withQ [.isEnc (.bytes (ascii "+OK foo"))]).hostQ = [.isEnc (.bytes (ascii "+OK foo"))] ∧
    (State.reset.withQ [.isEnc .prev]).hostQ = [.isEnc .prev] ∧ (State.reset.withQ [.isEnc .prev]).busy = false := by decide
/-- A message of bytes, and an `@` that denotes nothing. -/
theorem witness_encrypt :
    (State.reset.withQ [.encrypt .prev (.bytes (ascii "egg spam"))]).busy = false ∧
    (State.reset.withQ [.encrypt .prev (.bytes (ascii "egg spam"))]).operand (.bytes (ascii "egg spam")) = some (ascii "egg spam") ∧
    (State.reset.withQ [.encrypt (.bytes keyK) .prev]).operand .prev = none := by decide
/-- An untagged and a tagged text, and an `@` that denotes nothing. -/
theorem witness_decrypt :
    (State.reset.withQ [.decrypt (.bytes keyK) (.bytes (ascii "plain"))]).busy = false ∧
    State.reset.operand (.bytes (ascii "plain")) = some (ascii "plain") ∧ isEncText (ascii "plain") = false ∧
    isEncText (ascii "+OK ") = true ∧ (State.reset.withQ [.decrypt .prev .prev]).operand .prev = none := by decide
theorem witness_framing_round_trip : toy.Inverse ∧ toy.keyOk keyK = true :=
  ⟨witness_ecb_round_trip.1, witness_ecb_round_trip.2.1⟩
theorem witness_quoted : ∀ c ∈ ascii "egg spam", c ≠ 0x22#8 ∧ c ≠ 0x5C#8 := by decide
end Sys2Proof.Tests
end

section
/-! PROOFS. The family 10_state.md: the invariant of the machine, what a step completes or refuses, the registers and the ports. -/

namespace Sys2Proof.Machine

/-! ### The registers and the ROM -/

/-- Where a byte's subtraction does not wrap, its low 6 bits are those of the difference of the numbers. -/
theorem setWidth_sub_of_le (k c : Byte) (h : k.toNat ≤ c.toNat) :
    (c - k).setWidth 6 = BitVec.ofNat 6 (c.toNat - k.toNat) := by
  apply BitVec.eq_of_toNat_eq
  rw [BitVec.toNat_setWidth, BitVec.toNat_sub_of_le h, BitVec.toNat_ofNat]

/-- IDX by the byte's number: its comparisons are those of numbers, and no subtraction wraps (R30). -/
theorem idx_eq_ranges (c : Byte) : idx c =
    if 0x2E ≤ c.toNat ∧ c.toNat ≤ 0x39 then some (BitVec.ofNat 6 (c.toNat - 0x2E))
    else if 0x61 ≤ c.toNat ∧ c.toNat ≤ 0x7A then some (BitVec.ofNat 6 (c.toNat - 0x55))
    else if 0x41 ≤ c.toNat ∧ c.toNat ≤ 0x5A then some (BitVec.ofNat 6 (c.toNat - 0x1B))
    else none := by
  have entry : ∀ k lo : Byte, k.toNat ≤ lo.toNat → lo.toNat ≤ c.toNat →
      some ((c - k).setWidth 6) = some (BitVec.ofNat 6 (c.toNat - k.toNat)) :=
    fun k _ hk hlo => congrArg some (setWidth_sub_of_le k c (hk.trans hlo))
  exact ite_congr rfl (fun h => entry 0x2E#8 0x2E#8 (by decide) h.1) fun _ =>
    ite_congr rfl (fun h => entry 0x55#8 0x61#8 (by decide) h.1) fun _ =>
      ite_congr rfl (fun h => entry 0x1B#8 0x41#8 (by decide) h.1) fun _ => rfl

theorem idx_of_mem_alphaRom : ∀ c ∈ alphaRom, idx c ≠ none := by decide

/-- Settles O22: R30's ranges and its inverse, from the laws of the ROM. -/
theorem alphabetInverse : Obligations.AlphabetInverse := by
  refine ⟨rfl, by decide, by decide, idx_eq_ranges, idx_alpha, fun c => ?_⟩
  cases h : idx c with
  | some i => exact alpha_of_idx c i h
  | none => exact fun hm => idx_of_mem_alphaRom c hm h

theorem statusWord_layout : ∀ (busy : Bool) (code : BitVec 4),
    (statusWord busy code).extractLsb' 0 4 = code ∧ (statusWord busy code).extractLsb' 4 4 = 0#4 ∧
      (statusWord busy code).extractLsb' 8 1 = BitVec.ofBool busy ∧ (statusWord busy code).extractLsb' 9 23 = 0#23 := by
  decide

/-- Settles O36: STATUS depends on BUSY and CODE only, 32 words in all. -/
theorem statusLayout : Obligations.StatusLayout := fun s => statusWord_layout s.busy s.code

/-- Settles O37: each field is the one `State.reset` is built with. -/
theorem resetValues : Obligations.ResetValues :=
  ⟨rfl, rfl, rfl, rfl, rfl, rfl, rfl, rfl, rfl⟩

/-! ### COMPLETE -/

/-- Every byte selects a well-formed command (R64). -/
theorem decodeByte_wf : ∀ b : Byte, (decodeByte b).wf = true := by decide

/-- COMPLETE of the command in flight is RUN's outcome on the latches (R38). -/
theorem step_completes_run (s : State) (hb : s.busy = true) (hw : s.hostWaits = true) :
    step s = .next (s.complete (run Config.cipher s.cmdL s.keyL s.dinL)) := by
  rw [step_of_busy s hb hw, exec_eq]; rfl

/-- Settles O5: the step of a busy block, for the latched byte as it stands and for the byte just placed. -/
theorem stepRunsTheDecodedCommand : Obligations.StepRunsTheDecodedCommand := by
  refine ⟨fun s hb hw => ⟨decodeByte s.cmdL, rfl, decodeByte_wf _, step_of_busy s hb hw⟩, fun s b => ?_⟩
  have latched : (s.withFetchWord 8 b.toNat).cmdL = b := by
    rw [State.withFetchWord_cmdL, Nat.mod_eq_of_lt b.isLt, BitVec.ofNat_toNat, BitVec.setWidth_eq]
  refine ⟨?_, latched⟩
  rw [step_of_busy _ rfl rfl, State.fetch, latched]

/-- A host move records no completion: the history stays, or gains a reset. -/
theorem hostStep_history {m : HostMove} {s t : State} (h : hostStep m s = .next t) :
    t.history = s.history ∨ t.history = .wasReset :: s.history := by
  obtain ⟨q, c, k, d, -, rfl⟩ | ⟨r, rfl | rfl⟩ | ⟨r, rfl⟩ | rfl | rfl := hostStep_next h
  case inr.inr.inr.inl => exact .inr rfl
  all_goals exact .inl rfl

/-- While BUSY = 0 no step completes a command (R38). -/
theorem step_history_of_idle {s t : State} (hb : s.busy = false) (h : step s = .next t) :
    t.history = s.history ∨ t.history = .wasReset :: s.history := by
  obtain ⟨hbusy, -⟩ | ⟨-, -, hs⟩ | ⟨m, rest, -, -, hs⟩ := step_kinds s
  · simp [hb] at hbusy
  · cases hs.symm.trans h; exact .inl rfl
  · simpa using hostStep_history (hs.symm.trans h)

/-- Settles O6: COMPLETE as a whole next state, no completion while idle, and R27's word of a position it can hold. -/
theorem completeIsRunOnTheLatches : Obligations.CompleteIsRunOnTheLatches := by
  refine ⟨step_completes_run, fun s t => step_history_of_idle, fun n hn => ?_⟩
  rw [errPosWord_of_lt hn, BitVec.toNat_ofNat, Nat.mod_eq_of_lt hn]

/-! ### The ports -/

theorem capacityOk_iff (cmd : Byte) (key din : ByteSeq) :
    capacityOk cmd key din = true ↔ fits key = true ∧ fits din = true ∧ fits (run Config.cipher cmd key din).out = true := by
  simp [capacityOk, and_assoc]

/-- Settles O39: the move is made while idle, through R33's check, and waits while busy. -/
theorem issueLatchesItsOperands : Obligations.IssueLatchesItsOperands := by
  intro s cmd key din rest hq
  refine ⟨fun hb => ?_, fun hb => step_of_busy s hb (by simp [State.hostWaits, hq, HostMove.waits])⟩
  have issued : step s = (s.withQ rest).issueBytes cmd key din := step_of_host s _ rest hq (.inl hb)
  rw [issued]
  exact if_congr (capacityOk_iff cmd key din) rfl rfl

theorem statusRead_of_idle {s : State} (hb : s.busy = false) : s.statusRead = s.code.setWidth 32 := by
  simp [State.statusRead, State.status, statusWord, hb]

theorem useFree_of_idle (s : State) (hb : s.busy = false) : s.useFree = s := by
  rw [State.useFree, if_neg (by simp [hb])]

theorem outLenWord_toNat {n : Nat} (h : n < 2 ^ 32) : (outLenWord n).toNat = n := by
  rw [outLenWord, if_pos h, BitVec.toNat_ofNat, Nat.mod_eq_of_lt h]

theorem readStatus_of_idle {s : State} (hb : s.busy = false) :
    s.readStatus = .next (s.note (.status (s.code.setWidth 32))) := by
  rw [State.readStatus, statusRead_of_idle hb, useFree_of_idle (s.note _) hb]

theorem readErrPos_of_idle {s : State} (hb : s.busy = false) : s.readErrPos = .next (s.note (.errPos s.errPos)) := by
  simp [State.readErrPos, hb]

theorem readOutLen_of_idle {s : State} (hb : s.busy = false) : s.readOutLen = .next (s.note (.outLen s.outLen)) := by
  simp [State.readOutLen, hb]

theorem readDout_of_lt {s : State} {i : Nat} (hb : s.busy = false) (h : i < s.dout.length) :
    s.readDout i = .next (s.note (.dout i s.dout[i])) := by
  simp [State.readDout, hb, h]

theorem readDout_of_ge {s : State} {i : Nat} (hb : s.busy = false) (h : s.dout.length ≤ i) :
    s.readDout i = .fault (.doutIndexOutOfRange i) := by
  simp [State.readDout, hb, h]

/-- Settles O42: each read's own lemma, with the move taken off the queue. -/
theorem readsWhileIdle : Obligations.ReadsWhileIdle := by
  intro s rest hb
  have made : ∀ {m}, s.hostQ = m :: rest → step s = hostStep m (s.withQ rest) := fun hq => step_of_host s _ rest hq (.inl hb)
  have hb' : (s.withQ rest).busy = false := hb
  refine ⟨fun hq => ?_, fun hq => ?_, fun hq => ⟨s.outLen, ?_, outLenWord_toNat⟩, fun i hq => ⟨fun h => ?_, fun h => ?_⟩⟩
  · exact (made hq).trans (readStatus_of_idle hb')
  · exact (made hq).trans (readErrPos_of_idle hb')
  · exact (made hq).trans (readOutLen_of_idle hb')
  · exact (made hq).trans (readDout_of_lt hb' h)
  · exact (made hq).trans (readDout_of_ge hb' h)

/-! ### Refusals -/

/-- An ISSUE is refused over capacity, or for an operand `@` that denotes nothing (R207). -/
theorem issue_refused {s : State} {cmd : Byte} {key din : Operand} {r : Refusal} (h : s.issue cmd key din = .refused r) :
    r = .overCapacity ∨ (r = .noPreviousOutput ∧ (key = .prev ∨ din = .prev) ∧ s.prevOk = false) := by
  obtain ⟨he, -⟩ | ⟨he, hp⟩ := issue_eq s cmd key din
  · rw [he] at h
    obtain ⟨-, hb⟩ | ⟨-, hb⟩ := issueBytes_eq s cmd (key.given s.dout) (din.given s.dout)
    · cases hb.symm.trans h
    · cases hb.symm.trans h; exact .inl rfl
  · cases he.symm.trans h; exact .inr ⟨rfl, hp⟩

/-- The two reasons for which the host's move `m` is refused in `s`, each with its cause (R33, R72). -/
def State.refusesFor (s : State) (m : HostMove) (r : Refusal) : Prop :=
  (r = .overCapacity ∧ s.issuesCommand m = true) ∨ (r = .noPreviousOutput ∧ m.takesPrev = true ∧ s.prevOk = false)

/-- A refused ISSUE is the fault of the move that makes it, if that move counts as issuing and as taking its operands `@`. -/
theorem refusesFor_of_issue {s : State} {m : HostMove} {cmd : Byte} {key din : Operand} {r : Refusal}
    (hissues : s.issuesCommand m = true) (htakes : key = .prev ∨ din = .prev → m.takesPrev = true)
    (h : s.issue cmd key din = .refused r) : s.refusesFor m r :=
  (issue_refused h).imp (⟨·, hissues⟩) fun ⟨hr, hp, hprev⟩ => ⟨hr, htakes hp, hprev⟩

/-- Likewise for a framing step, whose next move put on the queue changes neither. -/
theorem refusesFor_of_issueThen {s : State} {m follow : HostMove} {cmd : Byte} {key din : Operand} {r : Refusal}
    (hissues : s.issuesCommand m = true) (htakes : key = .prev ∨ din = .prev → m.takesPrev = true)
    (h : s.issueThen cmd key din follow = .refused r) : s.refusesFor m r :=
  (issue_refused h).imp (⟨·, hissues⟩) fun ⟨hr, hp, hprev⟩ => ⟨hr, htakes hp, hprev⟩

/-- A host move that is refused is one that waits for BUSY = 0, and has one of the two causes. -/
theorem hostStep_refused {m : HostMove} {s : State} {r : Refusal} (h : hostStep m s = .refused r) :
    m.waits = true ∧ s.refusesFor m r := by
  cases m with
  | issue cmd key din => exact ⟨rfl, refusesFor_of_issue rfl (by simp [HostMove.takesPrev]) h⟩
  | waitIdle => cases h
  | readStatus => cases h
  | readErrPos =>
    simp only [hostStep, State.readErrPos] at h
    split at h <;> cases h
  | readOutLen =>
    simp only [hostStep, State.readOutLen] at h
    split at h <;> cases h
  | readDout i =>
    simp only [hostStep, State.readDout] at h
    split at h
    · cases h
    · split at h <;> cases h
  | reset => cases h
  | encrypt key m => exact ⟨rfl, refusesFor_of_issueThen rfl (by simp [HostMove.takesPrev]) h⟩
  | encryptEcb key => exact ⟨rfl, refusesFor_of_issueThen rfl (by simp [HostMove.takesPrev]) h⟩
  | encryptEnc =>
    simp only [hostStep, State.encryptEncStep] at h
    split at h
    · cases h
    · next hcode => exact ⟨rfl, refusesFor_of_issueThen (by simpa [State.issuesCommand] using hcode) (by simp) h⟩
  | encryptTag => cases h
  | decrypt key t =>
    simp only [hostStep, State.decryptStart] at h
    obtain ⟨he, -⟩ | ⟨he, rfl, hprev⟩ := withOperand_eq s t _
    · rw [he] at h
      split at h
      · next htag =>
        have hwaits : (HostMove.decrypt key t).waits = true :=
          match t, htag with
          | .bytes _, htag => htag
          | .prev, _ => rfl
        exact ⟨hwaits, refusesFor_of_issueThen htag (by simp) h⟩
      · cases h
    · cases he.symm.trans h
      exact ⟨rfl, .inr ⟨rfl, rfl, hprev⟩⟩
  | decryptEcb key =>
    simp only [hostStep, State.decryptEcbStep] at h
    split at h
    · cases h
    · next hcode =>
      exact ⟨rfl, refusesFor_of_issueThen (by simpa [State.issuesCommand] using hcode) (by simp [HostMove.takesPrev]) h⟩
  | decryptTrim =>
    simp only [hostStep, State.decryptTrimStep] at h
    split at h <;> cases h
  | isEnc t =>
    simp only [hostStep, State.isEncStep] at h
    obtain ⟨he, -⟩ | ⟨he, rfl, hprev⟩ := withOperand_eq s t _
    · cases he.symm.trans h
    · cases he.symm.trans h
      exact ⟨rfl, .inr ⟨rfl, rfl, hprev⟩⟩

/-- Settles O44: a COMPLETE and an idle step answer a next state, so the refusal is a host move's, and a move that waits is made
only while BUSY = 0. -/
theorem refusalsOnlyAtCommandsAndPrevOperands : Obligations.RefusalsOnlyAtCommandsAndPrevOperands := by
  intro s r h
  obtain ⟨-, -, hs⟩ | ⟨-, -, hs⟩ | ⟨m, rest, hq, hmade, hs⟩ := step_kinds s
  · rw [hs, exec_eq] at h; cases h
  · rw [hs] at h; cases h
  · obtain ⟨hwaits, hcause⟩ := hostStep_refused (hs.symm.trans h)
    have hb : s.busy = false := hmade.resolve_right (by simp [hwaits])
    exact ⟨hb, m, rest, hq, hcause⟩

/-! ### The invariant -/

theorem codeOk_le : codeOk.toNat ≤ 5 := by decide

/-- After reset every buffer is empty and no event has come (R34). -/
theorem reset_inv : State.reset.Inv where
  codeLegal := codeOk_le
  posOnlyForBadChar := fun _ => rfl
  outOnlyForOk := fun _ => rfl
  keyFits := fits_nil
  dinFits := fits_nil
  doutFits := fits_nil
  outFits := nofun
  agrees := ⟨rfl, rfl, rfl⟩
  past := nofun

/-- Settles O46: the base case of the invariant. -/
theorem resetHasTheInvariant : Obligations.ResetHasTheInvariant := reset_inv

/-! The host's own fields are no part of the invariant. -/

theorem State.Inv.withQ {s : State} (h : s.Inv) (q : List HostMove) : (s.withQ q).Inv := { h with }

theorem State.Inv.note {s : State} (h : s.Inv) (r : HostRead) : (s.note r).Inv := { h with }

theorem State.Inv.useFree {s : State} (h : s.Inv) : s.useFree.Inv := { h with }

theorem State.Inv.answer {s : State} (h : s.Inv) (r : HostResult) : (s.answer r).Inv := { h with }

/-- Reset gives the block's record its values of R34; only the run's record is that of before, with one legal event more (R200). -/
theorem State.Inv.resetBlock {s : State} (h : s.Inv) : s.resetBlock.Inv :=
  { reset_inv with
    agrees := ⟨rfl, rfl, rfl⟩
    past := List.forall_mem_cons.mpr ⟨trivial, h.past⟩ }

/-- ISSUE latches only what R33's check lets through, and leaves the results. -/
theorem State.Inv.latch {s : State} (h : s.Inv) {cmd : Byte} {key din : ByteSeq} (hc : capacityOk cmd key din = true) :
    (s.latch cmd key din).Inv :=
  have ⟨hkey, hdin, hout⟩ := (capacityOk_iff cmd key din).mp hc
  { h with keyFits := hkey, dinFits := hdin, outFits := fun _ => hout }

/-- A COMPLETE with a legal triple keeps the invariant: the registers and the record's newest event both hold that triple. -/
theorem State.Inv.complete {s : State} (h : s.Inv) {r : Result}
    (hr : (RunEvent.completed r.code (errPosWord r.pos) r.visible).legal) : (s.complete r).Inv :=
  have ⟨hcode, hpos, hout, hfits⟩ := hr
  { codeLegal := hcode
    posOnlyForBadChar := hpos
    outOnlyForOk := hout
    keyFits := h.keyFits
    dinFits := h.dinFits
    doutFits := hfits
    outFits := nofun
    agrees := ⟨rfl, rfl, rfl⟩
    past := List.forall_mem_cons.mpr ⟨hr, h.past⟩ }

/-- A command's triple is legal where its output fits (R180, R184, R185). -/
theorem runInstr_legal (c : Cipher) (i : Instr) (key din : ByteSeq) {r : Result} (hr : r = runInstr c i key din)
    (hfits : fits r.out = true) : (RunEvent.completed r.code (errPosWord r.pos) r.visible).legal := by
  obtain ⟨out, he⟩ | ⟨e, p, he, -, hle, hpos⟩ := runInstr_cases c i key din
  · obtain rfl := hr.trans he
    exact ⟨codeOk_le, fun _ => errPosWord_zero, fun h => absurd rfl h, hfits⟩
  · obtain rfl := hr.trans he
    refine ⟨hle, fun h => ?_, fun _ => visible_raise e p, ?_⟩
    · rw [pos_raise, hpos h, errPosWord_zero]
    · rw [visible_raise]; exact fits_nil

/-- Every host move that answers a next state keeps the invariant. -/
theorem State.Inv.of_hostStep {m : HostMove} {s t : State} (h : s.Inv) (hs : hostStep m s = .next t) : t.Inv := by
  obtain ⟨q, c, k, d, hc, rfl⟩ | ⟨r, rfl | rfl⟩ | ⟨r, rfl⟩ | rfl | rfl := hostStep_next hs
  · exact (h.withQ _).latch hc
  · exact h.note r
  · exact (h.note r).useFree
  · exact h.answer r
  · exact h.resetBlock
  · exact h

/-- Settles O45: a COMPLETE records RUN's legal triple, and the host's moves keep the invariant one by one. -/
theorem stepKeepsTheInvariant : Obligations.StepKeepsTheInvariant := by
  intro s t h hst
  obtain ⟨hb, hw, -⟩ | ⟨-, -, hs⟩ | ⟨m, rest, -, -, hs⟩ := step_kinds s
  · cases (step_completes_run s hb hw).symm.trans hst
    exact h.complete (runInstr_legal _ _ _ _ rfl (h.outFits hb))
  · cases hs.symm.trans hst; exact h
  · exact (h.withQ rest).of_hostStep (hs.symm.trans hst)

end Sys2Proof.Machine
end

section
/-! PROOFS. The family 20_memory.md: what reads and commands write, and the order of a Group's characters. -/

namespace Sys2Proof.Machine

/-! ### Frames -/

/-- A read that answers a next state only notes what it returned, and may use up a free value (R36, R49). -/
theorem read_next {m : HostMove} {s t : State} (hm : m = .readStatus ∨ m.readsResult = true) (h : hostStep m s = .next t) :
    ∃ r, t = s.note r ∨ t = (s.note r).useFree := by
  obtain rfl | hm := hm
  · cases h; exact ⟨_, .inr rfl⟩
  · cases m with
    | readErrPos =>
      simp only [hostStep, State.readErrPos] at h
      split at h <;> cases h
      exact ⟨_, .inl rfl⟩
    | readOutLen =>
      simp only [hostStep, State.readOutLen] at h
      split at h <;> cases h
      exact ⟨_, .inl rfl⟩
    | readDout i =>
      simp only [hostStep, State.readDout] at h
      split at h
      · cases h
      · split at h <;> cases h
        exact ⟨_, .inl rfl⟩
    | _ => cases hm

/-- A command's next state is the COMPLETE of its outcome on the latches. -/
theorem exec_next {i : Instr} {s t : State} (h : exec i s = .next t) :
    t = s.complete (runInstr Config.cipher i s.keyL s.dinL) := by
  cases (exec_eq i s).symm.trans h; rfl

/-- Settles O16: a read notes, a command is COMPLETE, and COMPLETE's triple is a function of the command and its latches. -/
theorem commandsWriteOnlyTheirResults : Obligations.CommandsWriteOnlyTheirResults := by
  refine ⟨fun s t m hm h => ?_, fun i s t h => ?_, fun i s s' t t' hkey hdin h h' => ?_⟩
  · obtain ⟨r, rfl | rfl⟩ := read_next hm h <;> simp
  · obtain rfl := exec_next h
    simp
  · obtain rfl := exec_next h
    obtain rfl := exec_next h'
    simp [hkey, hdin]

/-! ### The characters of a Group -/

/-- The sextet the datapath emits is the low 6 bits (R110). -/
theorem setWidth_and_mask (v : Word) : (v &&& 0x3F#32).setWidth 6 = v.setWidth 6 := by
  have mask : (0x3F#32).setWidth 6 = BitVec.allOnes 6 := rfl
  rw [BitVec.setWidth_and, mask, BitVec.and_allOnes]

/-- Character `i` of a half carries its bits from `6*i` on, the least significant sextet first (R110). -/
theorem memRead1_emitSextets (n i : Nat) (v : Word) (h : i < n) :
    memRead1 (emitSextets n v) i = alpha (v.extractLsb' (6 * i) 6) := by
  rw [← BitVec.setWidth_ushiftRight_eq_extractLsb]
  induction n generalizing i v with
  | zero => omega
  | succ n ih =>
    cases i with
    | zero => exact congrArg alpha (setWidth_and_mask v)
    | succ i =>
      have shifted : v >>> 6 >>> (6 * i) = v >>> (6 * (i + 1)) := by
        rw [← BitVec.shiftRight_add, Nat.add_comm, Nat.mul_succ]
      rw [← shifted]
      exact ih i (v >>> 6) (by omega)

/-- The first six characters are those of R, the second half of the Block (R110). -/
theorem memRead1_encBlock_low (d : ByteSeq) (a i : Nat) (h : i < 6) :
    memRead1 (encBlock d a) i = alpha ((memRead4 d (a + 4)).extractLsb' (6 * i) 6) := by
  rw [encBlock, memRead1_append_left _ _ _ (by rwa [emitSextets_length])]
  exact memRead1_emitSextets 6 i _ h

/-- The last six characters are those of L, the first half of the Block (R110). -/
theorem memRead1_encBlock_high (d : ByteSeq) (a i : Nat) (h : i < 6) :
    memRead1 (encBlock d a) (6 + i) = alpha ((memRead4 d a).extractLsb' (6 * i) 6) := by
  have half := memRead1_append_right (emitSextets 6 (memRead4 d (a + 4))) (emitSextets 6 (memRead4 d a)) i
  rw [emitSextets_length] at half
  exact half.trans (memRead1_emitSextets 6 i _ h)

/-- The sixth sextet of a half has two bits left (R44, R113). -/
theorem extractLsb'_top (v : Word) : v.extractLsb' 30 6 = (v.extractLsb' 30 2).setWidth 6 := by
  ext i hi
  simp only [BitVec.getElem_extractLsb', BitVec.getElem_setWidth, BitVec.getLsbD_extractLsb']
  by_cases h : i < 2
  · simp [h]
  · simp [h, BitVec.getLsbD_of_ge v (30 + i) (by omega)]

theorem extractLsb'_append_low (l r : Word) (k n : Nat) (h : k + n ≤ 32) :
    (l ++ r).extractLsb' k n = r.extractLsb' k n := by
  ext i hi
  simp only [BitVec.getElem_extractLsb', BitVec.getLsbD_append]
  rw [if_pos (by omega)]

theorem extractLsb'_append_high (l r : Word) (k n : Nat) : (l ++ r).extractLsb' (32 + k) n = l.extractLsb' k n := by
  ext i hi
  simp only [BitVec.getElem_extractLsb', BitVec.getLsbD_append]
  rw [if_neg (by omega), Nat.add_assoc, Nat.add_sub_cancel_left]

/-- Settles O25: a field of V below bit 32 is one of R, the others are those of L. -/
theorem sextetsOfTheWholeBlock : Obligations.SextetsOfTheWholeBlock := by
  intro l r
  obtain ⟨hl, hr⟩ := memRead4_halves l r
  have low : ∀ i < 6, memRead1 (encBlock (bytesBE32 l ++ bytesBE32 r) 0) i = alpha (r.extractLsb' (6 * i) 6) :=
    fun i hi => by rw [memRead1_encBlock_low _ _ _ hi, hr]
  have high : ∀ i < 6, memRead1 (encBlock (bytesBE32 l ++ bytesBE32 r) 0) (6 + i) = alpha (l.extractLsb' (6 * i) 6) :=
    fun i hi => by rw [memRead1_encBlock_high _ _ _ hi, hl]
  refine ⟨?_, ?_, ?_, ?_⟩
  · rw [low 0 (by decide), extractLsb'_append_low l r 0 6 (by decide)]
  · rw [low 5 (by decide), extractLsb'_append_low l r 30 2 (by decide), extractLsb'_top]
  · rw [high 0 (by decide), extractLsb'_append_high l r 0 6]
  · rw [high 5 (by decide), extractLsb'_append_high l r 30 2, extractLsb'_top]

end Sys2Proof.Machine
end

section
/-! PROOFS. The family 30_encoding.md: the command byte and its decoder, the reserved bytes, quoted operands and `@`. -/

namespace Sys2Proof.Machine

/-! ### The command byte -/

/-- The illegal bytes by number (R64). -/
theorem isIllegalByte_iff_toNat (b : Byte) : isIllegalByte b = true ↔ b.toNat = 0 ∨ 8 ≤ b.toNat := by
  simp [isIllegalByte, BitVec.lt_def, ← BitVec.toNat_inj, Nat.succ_le_iff]

/-- The illegal bytes by their fields: RSV is not 0, or OPC is 0 or 8 to 15 (R62, R63). -/
theorem isIllegalByte_iff_fields : ∀ b : Byte,
    isIllegalByte b = true ↔ rsvOf b ≠ 0#4 ∨ opcOf b = 0#4 ∨ 7#4 < opcOf b := by
  decide

theorem decodeByte_of_isIllegalByte : ∀ b : Byte, isIllegalByte b = true → decodeByte b = .illegalCommand b := by
  decide

/-- The command byte of a well-formed command selects that command (R61, R64). -/
theorem decodeByte_encodeByte {i : Instr} (h : i.wf = true) : decodeByte (encodeByte i) = i := by
  cases i with
  | illegalCommand b => exact decodeByte_of_isIllegalByte b h
  | pad | encb | decb | enc | dec | ecbe | ecbd => rfl

theorem encodeByte_decodeByte : ∀ b : Byte, encodeByte (decodeByte b) = b := by decide

/-- A byte selects an illegal command only if it is one of the 249, and then the illegal command of that byte (R62 to R64). -/
theorem decodeByte_eq_illegalCommand_iff (b x : Byte) :
    decodeByte b = .illegalCommand x ↔ x = b ∧ isIllegalByte b = true := by
  constructor
  · intro h
    have hx : x = b := by simpa [h, encodeByte] using encodeByte_decodeByte b
    have hwf : isIllegalByte x = true := by simpa [h, Instr.wf] using decodeByte_wf b
    exact ⟨hx, hx ▸ hwf⟩
  · rintro ⟨rfl, h⟩
    exact decodeByte_of_isIllegalByte x h

/-- A decoder reads a well-formed command back from its encoding and leaves what follows it (R65). -/
theorem decode_encode_append {i : Instr} (rest : ByteSeq) (h : i.wf = true) : decode (encode i ++ rest) = .ok (i, rest) :=
  congrArg (fun j => Except.ok (j, rest)) (decodeByte_encodeByte h)

/-- Settles O1: the decoder inverts the opcode map on well-formed commands, and the map inverts the decoder on every byte. -/
theorem decodeAndEncodeAgree : Obligations.DecodeAndEncodeAgree :=
  ⟨fun _ rest h => decode_encode_append rest h, fun b => ⟨decodeByte_wf b, encodeByte_decodeByte b⟩⟩

/-- Settles O2: each byte written out is the encoding of a well-formed command. -/
theorem opcodeMapBytesDecode : Obligations.OpcodeMapBytesDecode := by
  have decoded : ∀ i : Instr, i.wf = true → decode (encode i) = .ok (i, []) := fun _ h => decode_encode_append [] h
  have reserved : ∀ b ∈ [0x00#8, 0x08#8, 0x0F#8, 0x11#8, 0x81#8, 0xFF#8], isIllegalByte b = true := by decide
  exact ⟨decoded .pad rfl, decoded .encb rfl, decoded .decb rfl, decoded .enc rfl, decoded .dec rfl, decoded .ecbe rfl,
    decoded .ecbd rfl, fun b hb => decoded (.illegalCommand b) (reserved b hb)⟩

/-- Settles O3: every command completes, and the illegal ones are those of the 249 bytes. -/
theorem everyByteHasAnOutcome : Obligations.EveryByteHasAnOutcome := by
  intro b s
  refine ⟨⟨_, exec_eq _ s⟩, fun hb x hx => ?_, fun hb => ?_⟩
  · obtain ⟨-, hillegal⟩ := (decodeByte_eq_illegalCommand_iff b x).mp hx
    have := (isIllegalByte_iff_toNat b).mp hillegal
    omega
  · exact decodeByte_of_isIllegalByte b ((isIllegalByte_iff_toNat b).mpr hb)

/-- An illegal command completes with IllegalCommand at position 0, whatever the latches hold (R62, R63). -/
theorem exec_illegalCommand (b : Byte) (s : State) : exec (.illegalCommand b) s = .next (s.after codeIllegalCommand 0#32 []) := by
  rw [exec_eq]
  exact congrArg _ (complete_raise s codeIllegalCommand 0)

theorem opc_reserved_of_mem : ∀ o ∈ [0x0#4, 0x8#4, 0x9#4, 0xA#4, 0xB#4, 0xC#4, 0xD#4, 0xE#4, 0xF#4], o = 0#4 ∨ 7#4 < o := by
  decide

/-- Settles O4: either field makes the byte one of the 249, and these complete with IllegalCommand. -/
theorem reservedBytesCompleteIllegal : Obligations.ReservedBytesCompleteIllegal := by
  intro b s hb
  have hillegal : isIllegalByte b = true := (isIllegalByte_iff_fields b).mpr <|
    match hb with
    | .inl ⟨_, hopc⟩ => .inr (opc_reserved_of_mem _ hopc)
    | .inr hrsv => .inl hrsv
  exact ⟨decodeByte_of_isIllegalByte b hillegal, exec_illegalCommand b s⟩

/-! ### Operands of a program line -/

/-- Bytes that are no quote and no backslash stand for themselves, up to the closing quote (R72; log 12). -/
theorem stringRest_append_quote (b rest : ByteSeq) (h : ∀ c ∈ b, c ≠ 0x22#8 ∧ c ≠ 0x5C#8) :
    stringRest false (b ++ 0x22#8 :: rest) = some (b, rest) := by
  induction b with
  | nil => rfl
  | cons c b ih =>
    obtain ⟨⟨hquote, hbackslash⟩, hb⟩ := List.forall_mem_cons.mp h
    simp [stringRest, hquote, hbackslash, ih hb]

theorem parseOperand_quote (t : ByteSeq) :
    parseOperand (0x22#8 :: t) = (stringRest false t).map fun r => (.bytes r.1, r.2) := rfl

/-- Settles O52: what follows the opening quote is read to the closing one. -/
theorem quotedOperandIsItsBytes : Obligations.QuotedOperandIsItsBytes := by
  refine ⟨fun b rest h => ?_, fun _ _ _ => rfl⟩
  rw [List.cons_append, parseOperand_quote, stringRest_append_quote b rest h]
  rfl

theorem prevOk_of_completed {s : State} {c : BitVec 4} {p : Word} {d : ByteSeq} {q : List RunEvent}
    (h : s.history = .completed c p d :: q) : s.prevOk = (s.code == codeOk) := by
  simp [State.prevOk, h]

theorem prevOk_of_reset {s : State} {q : List RunEvent} (h : s.history = .wasReset :: q) : s.prevOk = false := by
  simp [State.prevOk, h]

theorem prevOk_of_no_event {s : State} (h : s.history = []) : s.prevOk = false := by
  simp [State.prevOk, h]

/-- Where `@` denotes DOUT, an ISSUE is one of the bytes its operands denote (R72). -/
theorem issue_of_prevOk {s : State} (cmd : Byte) (key din : Operand) (h : s.prevOk = true) :
    s.issue cmd key din = s.issueBytes cmd (key.given s.dout) (din.given s.dout) := by
  obtain ⟨he, -⟩ | ⟨-, -, hnot⟩ := issue_eq s cmd key din
  · exact he
  · simp [h] at hnot

/-- Where `@` denotes nothing, an ISSUE that takes one is refused (R72, R207(b)). -/
theorem issue_of_not_prevOk {s : State} (cmd : Byte) {key din : Operand} (hp : key = .prev ∨ din = .prev)
    (h : s.prevOk = false) : s.issue cmd key din = .refused .noPreviousOutput := by
  obtain ⟨-, hok⟩ | ⟨he, -⟩ := issue_eq s cmd key din
  · simp [hok hp] at h
  · exact he

/-- Settles O40: the step is the ISSUE, and the run's newest event says what its `@` denotes. -/
theorem previousOutputOperand : Obligations.PreviousOutputOperand := by
  intro s cmd key din rest hb hq hp
  have issued : step s = (s.withQ rest).issue cmd key din := step_of_host s _ rest hq (.inl hb)
  have refused (h : s.prevOk = false) : step s = .refused .noPreviousOutput :=
    issued.trans (issue_of_not_prevOk cmd hp h)
  refine ⟨fun c p d q h hcode => ?_, fun c p d q h hcode => refused ?_, fun h => refused (prevOk_of_no_event h),
    fun q h => refused (prevOk_of_reset h)⟩
  · have hok : s.prevOk = true := by simpa [prevOk_of_completed h, codeOk] using hcode
    exact issued.trans (issue_of_prevOk cmd key din hok)
  · simpa [prevOk_of_completed h, codeOk] using hcode

end Sys2Proof.Machine
end

section
/-! PROOFS. The family 40_zero_padder.md: what PAD appends and completes with, and which commands use the key. -/

namespace Sys2Proof.Machine

/-- PAD8 appends zero bytes only, at most seven of them (R100). -/
theorem pad8_eq_append (d : ByteSeq) : ∃ n ≤ 7, pad8 d = d ++ List.replicate n 0x00#8 := by
  by_cases h : d.length % 8 = 0
  · exact ⟨0, by omega, by simp [pad8_of_mod h]⟩
  · exact ⟨8 - d.length % 8, by omega, if_neg h⟩

/-- PAD completes OK with PAD8 of the latched input (R101). -/
theorem exec_pad (s : State) : exec .pad s = .next (s.after 0#4 0#32 (pad8 s.dinL)) := by
  rw [exec_eq]
  exact congrArg _ (complete_ok s (pad8 s.dinL))

/-- Settles O9: at most seven bytes reach a multiple of 8, so their number is the least one. -/
theorem padCompletes : Obligations.PadCompletes := by
  refine ⟨rfl, fun s => ?_⟩
  obtain ⟨n, hn, hpad⟩ := pad8_eq_append s.dinL
  have hmod : (s.dinL.length + n) % 8 = 0 := by simpa [hpad] using pad8_mod s.dinL
  exact ⟨n, hn, hpad ▸ exec_pad s, hmod, by omega, by omega⟩

/-- Settles O21: a padded length needs no padding, and the zero bytes come after the input. -/
theorem padIsIdempotent : Obligations.PadIsIdempotent := by
  intro d
  obtain ⟨n, -, hpad⟩ := pad8_eq_append d
  exact ⟨pad8_of_mod (pad8_mod d), by rw [hpad, List.take_left]⟩

/-- Settles O20: only the outcomes of ECBE and ECBD take the cipher or the key. -/
theorem onlyEcbUsesTheKey : Obligations.OnlyEcbUsesTheKey := by
  intro c c' i key key' din h
  cases i with
  | ecbe | ecbd => exact absurd h (by decide)
  | pad | encb | decb | enc | dec | illegalCommand => rfl

end Sys2Proof.Machine
end

section
/-! PROOFS. The family 41_codec.md: the two datapaths equal their closed forms, what the four codec commands complete with, and how
encoding and decoding invert each other. -/

namespace Sys2Proof.Machine

/-! ### Reading bytes -/

theorem memRead1_eq_getElem {d : ByteSeq} {i : Nat} (h : i < d.length) : memRead1 d i = d[i] := by
  simp [memRead1, h]

theorem isAlpha_memRead1 {d : ByteSeq} {i : Nat} (hd : d.all isAlpha = true) (h : i < d.length) :
    isAlpha (memRead1 d i) = true := by
  rw [memRead1_eq_getElem h]
  exact List.all_eq_true.mp hd _ (List.getElem_mem h)

theorem memRead1_middle (pre m post : ByteSeq) (i : Nat) (h : i < m.length) :
    memRead1 (pre ++ m ++ post) (pre.length + i) = memRead1 m i := by
  rw [List.append_assoc, memRead1_append_right, memRead1_append_left _ _ _ h]

theorem memRead4_middle (pre m post : ByteSeq) (i : Nat) (h : i + 3 < m.length) :
    memRead4 (pre ++ m ++ post) (pre.length + i) = memRead4 m i := by
  simp only [memRead4, Nat.add_assoc]
  rw [memRead1_middle _ _ _ _ (by omega), memRead1_middle _ _ _ _ (by omega), memRead1_middle _ _ _ _ (by omega),
    memRead1_middle _ _ _ _ (by omega)]

/-- A Block of the input is the bytes of its two halves. -/
theorem halves_of_slice {d : ByteSeq} {a : Nat} (h : a + 8 ≤ d.length) :
    bytesBE32 (memRead4 d a) ++ bytesBE32 (memRead4 d (a + 4)) = (d.drop a).take 8 := by
  have whole := bytes_of_halves ((d.drop a).take 8) (by rw [List.length_take, List.length_drop]; omega)
  rwa [memRead4_slice _ _ _ _ (by decide), memRead4_slice _ _ _ _ (by decide)] at whole

/-- The lowest bad index has a byte outside the alphabet, and all before it lie inside (R27, R185). -/
theorem firstBad_eq_some_iff {d : ByteSeq} {p : Nat} : firstBad d = some p ↔
    p < d.length ∧ isAlpha (memRead1 d p) = false ∧ ∀ i < p, isAlpha (memRead1 d i) = true := by
  rw [firstBad, List.findIdx?_eq_some_iff_getElem, ← exists_prop]
  refine exists_congr fun hp => and_congr ?_ (forall₂_congr fun i hi => ?_)
  · simp [memRead1_eq_getElem hp]
  · simp [memRead1_eq_getElem (hi.trans hp)]

theorem firstBad_eq_none_iff {d : ByteSeq} : firstBad d = none ↔ d.all isAlpha = true := by
  simp [firstBad]

/-! ### The encoder datapath -/

theorem emitSextets_six (v : Word) : emitSextets 6 v =
    [alpha (v.extractLsb' 0 6), alpha (v.extractLsb' 6 6), alpha (v.extractLsb' 12 6), alpha (v.extractLsb' 18 6),
      alpha (v.extractLsb' 24 6), alpha ((v.extractLsb' 30 2).setWidth 6)] := by
  rw [← extractLsb'_top]
  simp only [emitSextets, setWidth_and_mask, ← BitVec.shiftRight_add, BitVec.setWidth_ushiftRight_eq_extractLsb]
  rfl

/-- ENC_BLOCK is the closed form on the two halves it reads (R112). -/
theorem encBlock_eq_groupOf (d : ByteSeq) (a : Nat) : encBlock d a = groupOf (memRead4 d a) (memRead4 d (a + 4)) := by
  simp only [encBlock, emitSextets_six]
  rfl

/-- Settles O23: the two halves are read from the Block wherever it stands. -/
theorem encoderClosedForm : Obligations.EncoderClosedForm := by
  intro pre post b0 b1 b2 b3 b4 b5 b6 b7
  have half := memRead4_middle pre [b0, b1, b2, b3, b4, b5, b6, b7] post
  rw [encBlock_eq_groupOf]
  exact congrArg₂ groupOf (half 0 (by simp)) (half 4 (by simp))

/-- An index of two bits is one of the first four of the ROM. -/
theorem alpha_setWidth_two_bits : ∀ x : BitVec 2, alpha (x.setWidth 6) ∈ [0x2E#8, 0x2F#8, 0x30#8, 0x31#8] := by decide

/-- Settles O24: the sixth sextet of a half has two bits. -/
theorem lastCharactersAreSmall : Obligations.LastCharactersAreSmall := by
  intro d a
  refine ⟨encBlock_length d a, ?_⟩
  rw [encBlock_eq_groupOf]
  exact ⟨alpha_setWidth_two_bits _, alpha_setWidth_two_bits _⟩

theorem encBlock_all_isAlpha (d : ByteSeq) (a : Nat) : (encBlock d a).all isAlpha = true := by
  simp [encBlock_eq_groupOf, groupOf, isAlpha_alpha]

/-! ### ENCB and ENC -/

/-- ENC of whole Blocks is the loop over them (R115). -/
theorem encCmd_of_mod {d : ByteSeq} (h : d.length % 8 = 0) :
    encCmd d = .ok (forBlocks (d.length / 8) fun j => encBlock d (8 * j)) :=
  if_neg (not_not_intro h)

theorem encCmd_of_mod_ne {d : ByteSeq} (h : d.length % 8 ≠ 0) : encCmd d = .raise codeInvalidInputLength 0 := if_pos h

theorem mod_of_encCmd_code {d : ByteSeq} (h : (encCmd d).code = 0#4) : d.length % 8 = 0 := by
  by_contra hmod
  rw [encCmd_of_mod_ne hmod] at h
  exact absurd h (by decide)

/-- A command whose outcome is OK completes with its output at position 0 (R38). -/
theorem exec_of_ok {i : Instr} {s : State} {out : ByteSeq} (h : runInstr Config.cipher i s.keyL s.dinL = .ok out) :
    exec i s = .next (s.after 0#4 0#32 out) := by
  rw [exec_eq, h, complete_ok]; rfl

/-- A command whose outcome is an error completes with its code and position and no output (R38, R184). -/
theorem exec_of_raise {i : Instr} {s : State} {e : BitVec 4} {p : Nat}
    (h : runInstr Config.cipher i s.keyL s.dinL = .raise e p) : exec i s = .next (s.after e (errPosWord p) []) := by
  rw [exec_eq, h, complete_raise]

/-- Every error but InvalidCharacter has position 0 (R185). -/
theorem exec_of_raise_zero {i : Instr} {s : State} {e : BitVec 4}
    (h : runInstr Config.cipher i s.keyL s.dinL = .raise e 0) : exec i s = .next (s.after e 0#32 []) :=
  exec_of_raise h

theorem encbCmd_of_length_ne {d : ByteSeq} (h : d.length ≠ 8) : encbCmd d = .raise codeInvalidInputLength 0 := if_pos h

/-- Settles O10: ENC_BLOCK of the eight bytes, or the length check. -/
theorem encbCompletes : Obligations.EncbCompletes := by
  refine ⟨rfl, fun s b0 b1 b2 b3 b4 b5 b6 b7 hd => exec_of_ok ?_, fun s hd =>
    exec_of_raise_zero (encbCmd_of_length_ne hd)⟩
  rw [runInstr, hd]
  exact congrArg Result.ok (encBlock_eq_groupOf _ 0)

/-- Settles O11: each round of the loop is the closed form of its Block. -/
theorem encCompletes : Obligations.EncCompletes := by
  refine ⟨rfl, fun s hd => exec_of_ok ?_, fun s hd => exec_of_raise_zero (encCmd_of_mod_ne hd)⟩
  rw [runInstr, encCmd_of_mod hd]
  simp only [encBlock_eq_groupOf, forBlocks]

/-- Settles O30: every Group has 12 bytes, and ENC_BLOCK looks at its own Block only. -/
theorem encOutputGroupByGroup : Obligations.EncOutputGroupByGroup := by
  have groupLength (d : ByteSeq) : ∀ j < d.length / 8, (encBlock d (8 * j)).length = 12 := fun j _ => encBlock_length d _
  have group {d : ByteSeq} {j : Nat} (hcode : (encCmd d).code = 0#4) (hj : j < d.length / 8) :
      ((encCmd d).out.drop (12 * j)).take 12 = encBlock ((d.drop (8 * j)).take 8) 0 := by
    rw [encCmd_of_mod (mod_of_encCmd_code hcode), out_ok, forBlocks_slice _ _ _ (groupLength d) j hj, encBlock_slice]
  refine ⟨fun d hcode => ?_, fun d d' j hcode hcode' hj hj' hblock => ?_⟩
  · rw [encCmd_of_mod (mod_of_encCmd_code hcode), out_ok, forBlocks_length _ _ _ (groupLength d)]
  · rw [group hcode hj, group hcode' hj', hblock]

/-! ### The decoder datapath -/

theorem idxNat_lt (c : Byte) : idxNat c < 2 ^ 6 := by
  unfold idxNat
  cases idx c with
  | none => decide
  | some i => exact i.isLt

theorem idxNat_of_idx {c : Byte} {i : Sextet} (h : idx c = some i) : idxNat c = i.toNat := by
  simp [idxNat, h]

theorem idxNat_alpha (i : Sextet) : idxNat (alpha i) = i.toNat := idxNat_of_idx (idx_alpha i)

theorem alpha_idxNat {c : Byte} (h : isAlpha c = true) : alpha (BitVec.ofNat 6 (idxNat c)) = c := by
  obtain ⟨i, hi⟩ := Option.isSome_iff_exists.mp h
  rw [idxNat_of_idx hi, BitVec.ofNat_toNat, BitVec.setWidth_eq, alpha_of_idx c i hi]

/-- The first `n` terms of the sum of R122, not yet reduced modulo 2^32. -/
def indexSum (d : ByteSeq) (a : Nat) : (n : Nat) → Nat
  | 0 => 0
  | n + 1 => indexSum d a n + idxNat (memRead1 d (a + n)) * 2 ^ (6 * n)

theorem halfValue_eq_indexSum (d : ByteSeq) (a : Nat) : halfValue d a = BitVec.ofNat 32 (indexSum d a 6) := by
  simp [halfValue, indexSum]

/-- The terms so far lie below the next field (R122). -/
theorem indexSum_lt (d : ByteSeq) (a n : Nat) : indexSum d a n < 2 ^ (6 * n) := by
  induction n with
  | zero => exact Nat.one_pos
  | succ n ih =>
    have next : idxNat (memRead1 d (a + n)) * 2 ^ (6 * n) ≤ 63 * 2 ^ (6 * n) :=
      Nat.mul_le_mul_right _ (Nat.le_of_lt_succ (idxNat_lt _))
    rw [indexSum, Nat.mul_succ, Nat.pow_add]
    omega

/-- The fields do not overlap, so `|` and `+` agree (R122). -/
theorem or_index_eq_add {m n : Nat} (i : Sextet) (h : m < 2 ^ n) :
    BitVec.ofNat 32 m ||| i.setWidth 32 <<< n = BitVec.ofNat 32 (m + i.toNat * 2 ^ n) := by
  have field : i.setWidth 32 <<< n = BitVec.ofNat 32 (2 ^ n * i.toNat) := by
    apply BitVec.eq_of_toNat_eq
    simp [Nat.shiftLeft_eq, Nat.mul_comm]
  rw [field, ← BitVec.ofNat_or, Nat.or_comm, ← Nat.two_pow_add_eq_or_of_lt h, Nat.add_comm, Nat.mul_comm]

/-- On alphabet bytes the inner loop adds the remaining terms. -/
theorem accumHalf_indexSum (d : ByteSeq) (a n p : Nat) (h : ∀ k < p + n, isAlpha (memRead1 d (a + k)) = true) :
    accumHalf d a n p (BitVec.ofNat 32 (indexSum d a p)) = .ok (BitVec.ofNat 32 (indexSum d a (p + n))) := by
  induction n generalizing p with
  | zero => rfl
  | succ n ih =>
    obtain ⟨i, hi⟩ := Option.isSome_iff_exists.mp (h p (by omega))
    have added : BitVec.ofNat 32 (indexSum d a p) ||| i.setWidth 32 <<< (6 * p) = BitVec.ofNat 32 (indexSum d a (p + 1)) := by
      rw [or_index_eq_add i (indexSum_lt d a p), indexSum, idxNat_of_idx hi]
    rw [accumHalf_succ, hi]
    simp only [added]
    rw [ih (p + 1) fun k hk => h k (by omega), Nat.add_right_comm, Nat.add_assoc]

theorem accumHalf_eq_halfValue {d : ByteSeq} {a : Nat} (h : ∀ k < 6, isAlpha (memRead1 d (a + k)) = true) :
    accumHalf d a 6 0 0#32 = .ok (halfValue d a) := by
  rw [halfValue_eq_indexSum]
  exact accumHalf_indexSum d a 6 0 (by simpa using h)

/-- DEC_GROUP of twelve alphabet bytes is the closed form (R122). -/
theorem decGroup_eq_blockOfGroup {d : ByteSeq} {a : Nat} (hd : d.all isAlpha = true) (ha : a + 12 ≤ d.length) :
    decGroup d a = .ok (blockOfGroup d a) := by
  have low := accumHalf_eq_halfValue (d := d) (a := a) fun k hk => isAlpha_memRead1 hd (by omega)
  have high := accumHalf_eq_halfValue (d := d) (a := a + 6) fun k hk => isAlpha_memRead1 hd (by omega)
  simp only [decGroup, Config.halfChars, low, high, blockOfGroup]

/-- Settles O26: the Group at index 0. -/
theorem decoderClosedForm : Obligations.DecoderClosedForm :=
  fun _ hlen hg => decGroup_eq_blockOfGroup hg (by omega)

/-- Modulo 2^32 a half keeps five indices and two bits of the sixth (R122, R124). -/
theorem halfValue_toNat (d : ByteSeq) (a : Nat) :
    (halfValue d a).toNat = indexSum d a 5 + idxNat (memRead1 d (a + 5)) % 4 * 2 ^ 30 := by
  have low : indexSum d a 5 < 2 ^ 30 := indexSum_lt d a 5
  have terms : indexSum d a 6 = indexSum d a 5 + idxNat (memRead1 d (a + 5)) * 2 ^ 30 := rfl
  rw [halfValue_eq_indexSum, BitVec.toNat_ofNat, terms]
  omega

theorem indexSum_congr {d d' : ByteSeq} {a a' n : Nat} (h : ∀ k < n, memRead1 d (a + k) = memRead1 d' (a' + k)) :
    indexSum d a n = indexSum d' a' n := by
  induction n with
  | zero => rfl
  | succ n ih => rw [indexSum, indexSum, ih fun k hk => h k (by omega), h n (by omega)]

/-- Halves that agree in five characters and in two bits of the sixth index are the same word (R124). -/
theorem halfValue_congr {d d' : ByteSeq} {a : Nat} (hlow : ∀ k < 5, memRead1 d (a + k) = memRead1 d' (a + k))
    (htop : idxNat (memRead1 d (a + 5)) % 4 = idxNat (memRead1 d' (a + 5)) % 4) : halfValue d a = halfValue d' a := by
  apply BitVec.eq_of_toNat_eq
  rw [halfValue_toNat, halfValue_toNat, indexSum_congr hlow, htop]

/-- Settles O27: the two halves of either Group are the same words. -/
theorem nonCanonicalGroupsDecodeByMasking : Obligations.NonCanonicalGroupsDecodeByMasking := by
  intro g g' hlen hlen' hg hg' hsame h5 h11
  have r : halfValue g 0 = halfValue g' 0 := halfValue_congr (fun k hk => hsame _ (by omega) (by omega) (by omega)) h5
  have l : halfValue g 6 = halfValue g' 6 := halfValue_congr (fun k hk => hsame _ (by omega) (by omega) (by omega)) h11
  have decoded : blockOfGroup g 0 = blockOfGroup g' 0 := by rw [blockOfGroup, blockOfGroup, r, l]
  exact ⟨blockOfGroup g 0, rfl, decGroup_eq_blockOfGroup hg (by omega),
    decoded ▸ decGroup_eq_blockOfGroup hg' (by omega)⟩

theorem halfValue_slice (d : ByteSeq) (a k i : Nat) (h : i + 5 < k) :
    halfValue ((d.drop a).take k) i = halfValue d (a + i) := by
  rw [halfValue_eq_indexSum, halfValue_eq_indexSum]
  exact congrArg _ <| indexSum_congr fun j hj => by rw [memRead1_slice _ _ _ _ (by omega), Nat.add_assoc]

/-- The closed form looks at its own Group only. -/
theorem blockOfGroup_slice (d : ByteSeq) (a : Nat) : blockOfGroup ((d.drop a).take 12) 0 = blockOfGroup d a := by
  simp only [blockOfGroup]
  rw [halfValue_slice _ _ _ _ (by decide), halfValue_slice _ _ _ _ (by decide)]
  rfl

/-! ### DECB and DEC -/

/-- A loop over Groups answers the error of the first that fails. -/
theorem forGroups_error {f : Nat → Except Nat ByteSeq} {pre post : List Nat} {j p : Nat}
    (hpre : ∀ i ∈ pre, ∃ o, f i = .ok o) (hj : f j = .error p) : forGroups f (pre ++ j :: post) = .error p := by
  induction pre with
  | nil => simp [forGroups, hj]
  | cons i pre ih =>
    obtain ⟨⟨o, ho⟩, hrest⟩ := List.forall_mem_cons.mp hpre
    simp [forGroups, ho, ih hrest]

/-- The indices before `j` in an ascending loop are the lower ones. -/
theorem range_split {n j : Nat} (h : j < n) : ∃ pre post, List.range n = pre ++ j :: post ∧ ∀ i ∈ pre, i < j := by
  obtain ⟨pre, post, hsplit⟩ := List.append_of_mem (List.mem_range.mpr h)
  have ascending := hsplit ▸ List.pairwise_lt_range (n := n)
  exact ⟨pre, post, hsplit, fun i hi => (List.pairwise_append.mp ascending).2.2 i hi j List.mem_cons_self⟩

/-- A Group before the lowest bad index decodes. -/
theorem decGroup_ok_of_lt {d : ByteSeq} {a p : Nat} (hall : ∀ i < p, isAlpha (memRead1 d i) = true) (ha : a + 12 ≤ p) :
    ∃ o, decGroup d a = .ok o := by
  cases h : decGroup d a with
  | ok o => exact ⟨o, rfl⟩
  | error q =>
    obtain ⟨k, hk, rfl, hbad, -⟩ := (decGroup_error d a q).mp h
    exact absurd (hall (a + k) (by omega)) (by simp [hbad])

/-- The Group of the lowest bad index fails there, at that index of the whole input (R120, R185). -/
theorem decGroup_of_firstBad {d : ByteSeq} {p : Nat} (h : firstBad d = some p) : decGroup d (12 * (p / 12)) = .error p := by
  obtain ⟨-, hbad, hall⟩ := firstBad_eq_some_iff.mp h
  exact (decGroup_error ..).mpr ⟨p % 12, Nat.mod_lt _ (by decide), (Nat.div_add_mod p 12).symm, hbad,
    fun k hk => hall _ (by omega)⟩

theorem decbCmd_of_length {d : ByteSeq} (h : d.length = 12) : decbCmd d = decodeResult (decGroup d 0) :=
  if_neg (not_not_intro h)

theorem decbCmd_of_length_ne {d : ByteSeq} (h : d.length ≠ 12) : decbCmd d = .raise codeInvalidEncodingLength 0 := if_pos h

theorem decCmd_of_mod {d : ByteSeq} (h : d.length % 12 = 0) :
    decCmd d = decodeResult (forGroups (fun j => decGroup d (12 * j)) (List.range (d.length / 12))) :=
  if_neg (not_not_intro h)

theorem decCmd_of_mod_ne {d : ByteSeq} (h : d.length % 12 ≠ 0) : decCmd d = .raise codeInvalidEncodingLength 0 := if_pos h

theorem decbCmd_of_firstBad {d : ByteSeq} {p : Nat} (hlen : d.length = 12) (h : firstBad d = some p) :
    decbCmd d = .raise codeInvalidCharacter p := by
  obtain ⟨hp, -⟩ := firstBad_eq_some_iff.mp h
  have group : 12 * (p / 12) = 0 := by omega
  rw [decbCmd_of_length hlen, ← group, decGroup_of_firstBad h]
  rfl

theorem decbCmd_of_alpha {d : ByteSeq} (hlen : d.length = 12) (hd : d.all isAlpha = true) :
    decbCmd d = .ok (blockOfGroup d 0) := by
  rw [decbCmd_of_length hlen, decGroup_eq_blockOfGroup hd (by omega)]
  rfl

/-- The Groups before that of the lowest bad index decode, and it fails (R131, R185). -/
theorem decCmd_of_firstBad {d : ByteSeq} {p : Nat} (hmod : d.length % 12 = 0) (h : firstBad d = some p) :
    decCmd d = .raise codeInvalidCharacter p := by
  obtain ⟨hp, -, hall⟩ := firstBad_eq_some_iff.mp h
  obtain ⟨pre, post, hsplit, hpre⟩ := range_split (show p / 12 < d.length / 12 by omega)
  have before : ∀ i ∈ pre, ∃ o, decGroup d (12 * i) = .ok o := fun i hi =>
    decGroup_ok_of_lt hall (by have := hpre i hi; omega)
  rw [decCmd_of_mod hmod, hsplit, forGroups_error before (decGroup_of_firstBad h)]
  rfl

theorem decCmd_of_alpha {d : ByteSeq} (hmod : d.length % 12 = 0) (hd : d.all isAlpha = true) :
    decCmd d = .ok (forBlocks (d.length / 12) fun j => blockOfGroup d (12 * j)) := by
  have groups : ∀ j ∈ List.range (d.length / 12), decGroup d (12 * j) = .ok (blockOfGroup d (12 * j)) := fun j hj =>
    decGroup_eq_blockOfGroup hd (by have := List.mem_range.mp hj; omega)
  rw [decCmd_of_mod hmod, forGroups_ok _ _ _ groups]
  rfl

/-- DEC completes OK only on whole Groups of alphabet bytes. -/
theorem alpha_of_decCmd_code {d : ByteSeq} (h : (decCmd d).code = 0#4) : d.length % 12 = 0 ∧ d.all isAlpha = true := by
  have hmod : d.length % 12 = 0 := by
    by_contra hmod
    rw [decCmd_of_mod_ne hmod] at h
    exact absurd h (by decide)
  refine ⟨hmod, firstBad_eq_none_iff.mp ?_⟩
  cases hbad : firstBad d with
  | none => rfl
  | some p =>
    rw [decCmd_of_firstBad hmod hbad, code_raise] at h
    exact absurd h (by decide)

/-- Settles O12: the length first, then the lowest bad index, else the closed form. -/
theorem decbCompletes : Obligations.DecbCompletes := by
  refine ⟨rfl, fun s hlen => exec_of_raise_zero (decbCmd_of_length_ne hlen), fun s p hlen hbad => ?_,
    fun s hlen hbad => exec_of_ok (decbCmd_of_alpha hlen (firstBad_eq_none_iff.mp hbad))⟩
  obtain ⟨hp, -⟩ := firstBad_eq_some_iff.mp hbad
  rw [← errPosWord_of_lt (by omega)]
  exact exec_of_raise (decbCmd_of_firstBad hlen hbad)

/-- Settles O13: the same order over every Group, with the position in the whole input. -/
theorem decCompletes : Obligations.DecCompletes := by
  refine ⟨rfl, fun s hmod => exec_of_raise_zero (decCmd_of_mod_ne hmod), fun s p hmod hbad =>
    ⟨errPosWord p, exec_of_raise (decCmd_of_firstBad hmod hbad), fun hp => ?_⟩, fun s hmod hbad =>
    exec_of_ok (decCmd_of_alpha hmod (firstBad_eq_none_iff.mp hbad))⟩
  rw [errPosWord_of_lt hp, BitVec.toNat_ofNat, Nat.mod_eq_of_lt hp]

/-- Settles O31: every Block has 8 bytes, and the closed form looks at its own Group only. -/
theorem decOutputBlockByBlock : Obligations.DecOutputBlockByBlock := by
  have decoded {d : ByteSeq} (hcode : (decCmd d).code = 0#4) :
      (decCmd d).out = forBlocks (d.length / 12) fun j => blockOfGroup d (12 * j) := by
    obtain ⟨hmod, hd⟩ := alpha_of_decCmd_code hcode
    rw [decCmd_of_alpha hmod hd, out_ok]
  have blockLength (d : ByteSeq) : ∀ j < d.length / 12, (blockOfGroup d (12 * j)).length = 8 := fun _ _ => rfl
  have block {d : ByteSeq} {j : Nat} (hcode : (decCmd d).code = 0#4) (hj : j < d.length / 12) :
      ((decCmd d).out.drop (8 * j)).take 8 = blockOfGroup ((d.drop (12 * j)).take 12) 0 := by
    rw [decoded hcode, forBlocks_slice _ _ _ (blockLength d) j hj, blockOfGroup_slice]
  refine ⟨fun d hcode => ?_, fun d d' j hcode hcode' hj hj' hgroup => ?_⟩
  · rw [decoded hcode, forBlocks_length _ _ _ (blockLength d)]
  · rw [block hcode hj, block hcode' hj', hgroup]

/-- Settles O32: a byte outside the alphabet leaves a lowest one. -/
theorem strictDecoding : Obligations.StrictDecoding := by
  rintro d ⟨c, hc, hidx⟩
  have hbad : firstBad d ≠ none := fun h => by
    have : isAlpha c = true := List.all_eq_true.mp (firstBad_eq_none_iff.mp h) c hc
    simp [isAlpha, hidx] at this
  obtain ⟨p, hp⟩ := Option.ne_none_iff_exists'.mp hbad
  refine ⟨fun hlen => ?_, fun hmod => ?_⟩
  · rw [decbCmd_of_firstBad hlen hp]; rfl
  · rw [decCmd_of_firstBad hmod hp]; rfl

/-! ### Encoding and decoding invert each other -/

/-- The indices of characters that carry the sextets of a word add up to its low bits (R122). -/
theorem indexSum_of_sextets {g : ByteSeq} {a n : Nat} {v : Word}
    (h : ∀ i < n, memRead1 g (a + i) = alpha (v.extractLsb' (6 * i) 6)) : indexSum g a n = v.toNat % 2 ^ (6 * n) := by
  induction n with
  | zero => exact (Nat.mod_one _).symm
  | succ n ih =>
    rw [indexSum, ih fun i hi => h i (by omega), h n (by omega), idxNat_alpha, BitVec.extractLsb'_toNat,
      Nat.shiftRight_eq_div_pow, Nat.mul_succ, Nat.pow_add, Nat.mod_mul, Nat.mul_comm (2 ^ (6 * n))]

/-- Characters that carry the sextets of a word decode to it (R122). -/
theorem halfValue_of_sextets {g : ByteSeq} {a : Nat} {v : Word}
    (h : ∀ i < 6, memRead1 g (a + i) = alpha (v.extractLsb' (6 * i) 6)) : halfValue g a = v := by
  have small : v.toNat < 2 ^ (6 * 6) := v.isLt.trans (by decide)
  rw [halfValue_eq_indexSum, indexSum_of_sextets h, Nat.mod_eq_of_lt small, BitVec.ofNat_toNat, BitVec.setWidth_eq]

/-- The Group of a Block decodes to the bytes of its two halves. -/
theorem blockOfGroup_encBlock (d : ByteSeq) (a : Nat) :
    blockOfGroup (encBlock d a) 0 = bytesBE32 (memRead4 d a) ++ bytesBE32 (memRead4 d (a + 4)) := by
  have r : halfValue (encBlock d a) 0 = memRead4 d (a + 4) :=
    halfValue_of_sextets fun i hi => by rw [Nat.zero_add, memRead1_encBlock_low d a i hi]
  have l : halfValue (encBlock d a) (0 + 6) = memRead4 d a := halfValue_of_sextets (memRead1_encBlock_high d a)
  rw [blockOfGroup, r, l]

theorem forBlocks_all_isAlpha (n : Nat) {f : Nat → ByteSeq} (h : ∀ j, (f j).all isAlpha = true) :
    (forBlocks n f).all isAlpha = true := by
  simp only [forBlocks, List.all_flatMap, h, List.all_eq_true, implies_true]

/-- Settles O28: Group j of the encoding decodes to Block j, and the Blocks make up the input. -/
theorem decodeOfEncode : Obligations.DecodeOfEncode := by
  intro d hmod
  have groupLength : ∀ j < d.length / 8, (encBlock d (8 * j)).length = 12 := fun j _ => encBlock_length d _
  rw [encCmd_of_mod hmod, out_ok]
  refine ⟨rfl, ?_⟩
  have hlen := forBlocks_length _ _ _ groupLength
  rw [decCmd_of_alpha (by omega) (forBlocks_all_isAlpha _ fun j => encBlock_all_isAlpha d _), hlen,
    Nat.mul_div_cancel_left _ (by decide)]
  have blocks : ∀ j < d.length / 8, blockOfGroup (forBlocks (d.length / 8) fun j => encBlock d (8 * j)) (12 * j)
      = (d.drop (8 * j)).take 8 := fun j hj => by
    rw [← blockOfGroup_slice, forBlocks_slice _ _ _ groupLength j hj, blockOfGroup_encBlock, halves_of_slice (by omega)]
  rw [forBlocks_congr _ _ _ blocks, forBlocks_slices d 8 _ (by omega)]

/-- The fields of the sum stay apart: field `k` is index `k` (R122). -/
theorem indexSum_field (d : ByteSeq) (a n k m : Nat) (hk : k < n) :
    (indexSum d a n + m * 2 ^ (6 * n)) / 2 ^ (6 * k) % 2 ^ 6 = idxNat (memRead1 d (a + k)) := by
  induction n generalizing m with
  | zero => omega
  | succ n ih =>
    have regroup : indexSum d a (n + 1) + m * 2 ^ (6 * (n + 1))
        = indexSum d a n + (idxNat (memRead1 d (a + n)) + m * 2 ^ 6) * 2 ^ (6 * n) := by
      rw [indexSum, Nat.mul_succ, Nat.pow_add]; ring
    rw [regroup]
    rcases Nat.lt_succ_iff_lt_or_eq.mp hk with hlt | rfl
    · exact ih _ hlt
    · rw [Nat.add_mul_div_right _ _ (Nat.two_pow_pos _), Nat.div_eq_of_lt (indexSum_lt d a k), Nat.zero_add,
        Nat.add_mul_mod_self_right, Nat.mod_eq_of_lt (idxNat_lt _)]

/-- The first five characters of a decoded half come back. -/
theorem alpha_sextet_halfValue {d : ByteSeq} {a : Nat} (k : Nat) (hk : k < 5) (h : isAlpha (memRead1 d (a + k)) = true) :
    alpha ((halfValue d a).extractLsb' (6 * k) 6) = memRead1 d (a + k) := by
  have sextet : (halfValue d a).extractLsb' (6 * k) 6 = BitVec.ofNat 6 (idxNat (memRead1 d (a + k))) := by
    apply BitVec.eq_of_toNat_eq
    rw [BitVec.extractLsb'_toNat, BitVec.toNat_ofNat, Nat.shiftRight_eq_div_pow, halfValue_toNat,
      indexSum_field d a 5 k _ hk, Nat.mod_eq_of_lt (idxNat_lt _)]
  rw [sextet, alpha_idxNat h]

/-- The character of the low two bits of a byte's index, which a decoded half keeps of its sixth (R124). -/
def maskedChar (c : Byte) : Byte := alpha (BitVec.ofNat 6 (idxNat c % 4))

theorem alpha_top_halfValue (d : ByteSeq) (a : Nat) :
    alpha (((halfValue d a).extractLsb' 30 2).setWidth 6) = maskedChar (memRead1 d (a + 5)) := by
  apply congrArg alpha
  have low : indexSum d a 5 < 2 ^ 30 := indexSum_lt d a 5
  apply BitVec.eq_of_toNat_eq
  rw [BitVec.toNat_setWidth, BitVec.extractLsb'_toNat, BitVec.toNat_ofNat, Nat.shiftRight_eq_div_pow, halfValue_toNat]
  omega

/-- A byte is its own masked character exactly when its index is at most 3 (R124). -/
theorem maskedChar_eq_iff : ∀ c : Byte, isAlpha c = true →
    (maskedChar c = c ↔ (idx c).any (fun i => decide (i ≤ 3#6)) = true) := by
  decide

/-- Encoding a decoded Group masks its characters 5 and 11 and keeps the others (R125(b)). -/
theorem encBlock_blockOfGroup {g : ByteSeq} (hlen : g.length = 12) (hg : g.all isAlpha = true) :
    encBlock (blockOfGroup g 0) 0 = (g.set 5 (maskedChar (memRead1 g 5))).set 11 (maskedChar (memRead1 g 11)) := by
  obtain ⟨l, r⟩ := memRead4_halves (halfValue g 6) (halfValue g 0)
  have low : ∀ k < 5, alpha ((halfValue g 0).extractLsb' (6 * k) 6) = memRead1 g (0 + k) := fun k hk =>
    alpha_sextet_halfValue k hk (isAlpha_memRead1 hg (by omega))
  have high : ∀ k < 5, alpha ((halfValue g 6).extractLsb' (6 * k) 6) = memRead1 g (6 + k) := fun k hk =>
    alpha_sextet_halfValue k hk (isAlpha_memRead1 hg (by omega))
  have group : groupOf (halfValue g 6) (halfValue g 0) =
      [memRead1 g 0, memRead1 g 1, memRead1 g 2, memRead1 g 3, memRead1 g 4, maskedChar (memRead1 g 5),
        memRead1 g 6, memRead1 g 7, memRead1 g 8, memRead1 g 9, memRead1 g 10, maskedChar (memRead1 g 11)] := by
    rw [groupOf, alpha_top_halfValue, alpha_top_halfValue]
    simp [low 0, low 1, low 2, low 3, low 4, high 0, high 1, high 2, high 3, high 4]
  rw [encBlock_eq_groupOf, blockOfGroup, l, r, group]
  match g, hlen with
  | [_, _, _, _, _, _, _, _, _, _, _, _], _ => rfl

/-- Masking leaves a Group of alphabet bytes as it is exactly when it is canonical (R124). -/
theorem masked_eq_iff_isCanonical {g : ByteSeq} (hlen : g.length = 12) (hg : g.all isAlpha = true) :
    (g.set 5 (maskedChar (memRead1 g 5))).set 11 (maskedChar (memRead1 g 11)) = g ↔ isCanonical g = true := by
  have h5 := maskedChar_eq_iff _ (isAlpha_memRead1 hg (i := 5) (by omega))
  have h11 := maskedChar_eq_iff _ (isAlpha_memRead1 hg (i := 11) (by omega))
  have canonical : isCanonical g = true ↔ maskedChar (memRead1 g 5) = memRead1 g 5 ∧
      maskedChar (memRead1 g 11) = memRead1 g 11 := by
    simp [isCanonical, hlen, hg, h5, h11]
  rw [canonical]
  match g, hlen with
  | [_, _, _, _, _, _, _, _, _, _, _, _], _ => simp [memRead1]

/-- Encoding inverts decoding exactly on the canonical Groups (R125(b)). -/
theorem encBlock_blockOfGroup_eq_iff {g : ByteSeq} (hlen : g.length = 12) (hg : g.all isAlpha = true) :
    encBlock (blockOfGroup g 0) 0 = g ↔ isCanonical g = true := by
  rw [encBlock_blockOfGroup hlen hg, masked_eq_iff_isCanonical hlen hg]

theorem isCanonical_length_and_all {g : ByteSeq} (h : isCanonical g = true) : g.length = 12 ∧ g.all isAlpha = true := by
  simp only [isCanonical, Bool.and_eq_true, beq_iff_eq] at h
  obtain ⟨⟨⟨hlen, hg⟩, -⟩, -⟩ := h
  exact ⟨hlen, hg⟩

/-- Settles O29: a Block's Group encodes its decoding, and so does every canonical Group of that Block. -/
theorem encodeOfDecode : Obligations.EncodeOfDecode := by
  refine ⟨fun g hlen hg => ⟨blockOfGroup g 0, decGroup_eq_blockOfGroup hg (by omega),
    encBlock_blockOfGroup_eq_iff hlen hg, encBlock_blockOfGroup hlen hg⟩, fun b hb => ?_⟩
  have hlen := encBlock_length b 0
  have hall := encBlock_all_isAlpha b 0
  have decoded : blockOfGroup (encBlock b 0) 0 = b := (blockOfGroup_encBlock b 0).trans (bytes_of_halves b hb)
  refine ⟨encBlock b 0, (encBlock_blockOfGroup_eq_iff hlen hall).mp (by rw [decoded]), ?_, fun g hcanon hg => ?_⟩
  · rw [decGroup_eq_blockOfGroup hall (by omega), decoded]
  · obtain ⟨hglen, hgall⟩ := isCanonical_length_and_all hcanon
    have block : blockOfGroup g 0 = b := Except.ok.inj ((decGroup_eq_blockOfGroup hgall (by omega)).symm.trans hg)
    rw [← block]
    exact ((encBlock_blockOfGroup_eq_iff hglen hgall).mpr hcanon).symm

end Sys2Proof.Machine
end

section
/-! PROOFS. The family 42_ecb_wrapper.md: what ECBE and ECBD complete with, Block by Block, and that ECBD undoes ECBE under
CipherInverse. Each fact is said once, of `ecbCmd`, the shape the two commands share. -/

namespace Sys2Proof.Machine

/-! ### The three outcomes, in the order of the checks -/

theorem ecbCmd_of_mod_ne (keyOk : Bool) (f : Block → Block) {d : ByteSeq} (h : d.length % 8 ≠ 0) :
    ecbCmd keyOk f d = .raise codeInvalidInputLength 0 := if_pos h

theorem ecbCmd_of_keyOk_false (f : Block → Block) {d : ByteSeq} (h : d.length % 8 = 0) :
    ecbCmd false f d = .raise codeCipherKeyError 0 := if_neg (not_not_intro h)

/-- Under an accepted key the wrapper of whole Blocks is the loop over them (R141, R151). -/
theorem ecbCmd_of_keyOk (f : Block → Block) {d : ByteSeq} (h : d.length % 8 = 0) :
    ecbCmd true f d = .ok (forBlocks (d.length / 8) fun j => (f (blockAt d (8 * j))).toList) := if_neg (not_not_intro h)

theorem ecbCmd_code (f : Block → Block) {d : ByteSeq} (h : d.length % 8 = 0) : (ecbCmd true f d).code = 0#4 := by
  rw [ecbCmd_of_keyOk f h]; rfl

/-- The whole next state of a command with the wrapper's outcome: the length, then the key, then the Blocks (R144, R182). -/
theorem exec_of_ecbCmd {i : Instr} {s : State} {keyOk : Bool} {f : Block → Block}
    (h : runInstr Config.cipher i s.keyL s.dinL = ecbCmd keyOk f s.dinL) :
    exec i s = .next (
      if s.dinL.length % 8 ≠ 0 then s.after 1#4 0#32 []
      else if keyOk = false then s.after 4#4 0#32 []
      else s.after 0#4 0#32 (forBlocks (s.dinL.length / 8) fun j => (f (blockAt s.dinL (8 * j))).toList)) := by
  by_cases hmod : s.dinL.length % 8 = 0
  · rw [if_neg (not_not_intro hmod)]
    cases keyOk with
    | false => exact exec_of_raise_zero (h.trans (ecbCmd_of_keyOk_false f hmod))
    | true => exact exec_of_ok (h.trans (ecbCmd_of_keyOk f hmod))
  · rw [if_pos hmod]
    exact exec_of_raise_zero (h.trans (ecbCmd_of_mod_ne keyOk f hmod))

/-- Settles O14: ECBE's outcome is the wrapper's, with `encBlk` under the latched key. -/
theorem ecbeCompletes : Obligations.EcbeCompletes := ⟨rfl, fun _ => exec_of_ecbCmd rfl⟩

/-- Settles O15: ECBD's outcome is the wrapper's, with `decBlk` under the latched key. -/
theorem ecbdCompletes : Obligations.EcbdCompletes := ⟨rfl, fun _ => exec_of_ecbCmd rfl⟩

/-- Settles O34: the two checks come before the loop, whatever the Blocks. -/
theorem rejectedKeyIsReported : Obligations.RejectedKeyIsReported := by
  refine ⟨fun c key d hmod hkey => ?_, fun c key d hmod => ⟨ecbCmd_of_mod_ne _ _ hmod, ecbCmd_of_mod_ne _ _ hmod⟩⟩
  rw [ecbeCmd, ecbdCmd, hkey]
  exact ⟨ecbCmd_of_keyOk_false _ hmod, ecbCmd_of_keyOk_false _ hmod⟩

/-! ### Block by Block -/

theorem ecbCmd_out_length (f : Block → Block) {d : ByteSeq} (h : d.length % 8 = 0) :
    (ecbCmd true f d).out.length = d.length := by
  rw [ecbCmd_of_keyOk f h, out_ok, forBlocks_length _ 8 _ fun _ _ => by simp]
  omega

/-- Output Block j is the cipher of input Block j alone (R145). -/
theorem blockAt_ecbCmd_out (f : Block → Block) {d : ByteSeq} (h : d.length % 8 = 0) {j : Nat} (hj : j < d.length / 8) :
    blockAt (ecbCmd true f d).out (8 * j) = f (blockAt d (8 * j)) := by
  rw [ecbCmd_of_keyOk f h, out_ok, ← blockAt_slice, forBlocks_slice _ 8 _ (fun _ _ => by simp) j hj, blockAt_of_toList]

/-- Settles O33: both commands are the wrapper under an accepted key. -/
theorem ecbBlockByBlock : Obligations.EcbBlockByBlock := by
  intro c key d hmod hkey
  rw [ecbeCmd, ecbdCmd, hkey]
  exact ⟨ecbCmd_code _ hmod, ecbCmd_out_length _ hmod, ecbCmd_code _ hmod, ecbCmd_out_length _ hmod, fun j hj =>
    ⟨blockAt_ecbCmd_out _ hmod hj, blockAt_ecbCmd_out _ hmod hj⟩⟩

/-! ### The round trip -/

/-- The bytes of Block j are the slice of the input it was read from. -/
theorem blockAt_toList_eq_slice {d : ByteSeq} {a : Nat} (h : a + 8 ≤ d.length) :
    (blockAt d a).toList = (d.drop a).take 8 := by
  rw [← blockAt_slice, blockAt_toList _ (by rw [List.length_take, List.length_drop]; omega)]

/-- Where `g` undoes `f` on every Block, the wrapper with `g` undoes the wrapper with `f`. -/
theorem ecbCmd_ecbCmd_of_leftInverse {f g : Block → Block} (hinv : Function.LeftInverse g f) {d : ByteSeq}
    (h : d.length % 8 = 0) : ecbCmd true g (ecbCmd true f d).out = .ok d := by
  have hlen := ecbCmd_out_length f h
  have blocks : ∀ j < d.length / 8,
      (g (blockAt (ecbCmd true f d).out (8 * j))).toList = (d.drop (8 * j)).take 8 := fun j hj => by
    rw [blockAt_ecbCmd_out f h hj, hinv, blockAt_toList_eq_slice (by omega)]
  rw [ecbCmd_of_keyOk g (hlen ▸ h), hlen, forBlocks_congr _ _ _ blocks, forBlocks_slices d 8 _ (by omega)]

/-- Settles O35: CipherInverse is the left inverse on Blocks, under the accepted key. -/
theorem ecbRoundTrip : Obligations.EcbRoundTrip := by
  intro c key d hinv hkey hmod
  rw [ecbeCmd, ecbdCmd, hkey]
  exact ⟨ecbCmd_code _ hmod, ecbCmd_ecbCmd_of_leftInverse (fun b => hinv key b hkey) hmod⟩

end Sys2Proof.Machine
end

section
/-! PROOFS. The family 48_host_framing.md: TRIM and the tags, and the host's ENCRYPT and DECRYPT over the command port as their pure
compositions. -/

namespace Sys2Proof.Machine

/-! ### TRIM -/

theorem trim_eq_rdropWhile (p : ByteSeq) : trim p = p.rdropWhile (· == 0x00#8) := rfl

/-- TRIM leaves exactly the sequences that do not end in a zero byte (R165). -/
theorem trim_eq_self_iff (p : ByteSeq) : trim p = p ↔ p.getLast? ≠ some 0x00#8 := by
  rw [trim_eq_rdropWhile, List.rdropWhile_eq_self_iff]
  rcases p.eq_nil_or_concat with rfl | ⟨q, b, rfl⟩ <;> simp

theorem trim_append_zeros (p : ByteSeq) (n : Nat) : trim (p ++ List.replicate n 0x00#8) = trim p := by
  induction n with
  | zero => rw [List.replicate_zero, List.append_nil]
  | succ n ih =>
    rw [List.replicate_succ', ← List.append_assoc, trim_eq_rdropWhile, List.rdropWhile_concat_pos _ _ _ rfl]
    exact ih

/-- TRIM of a padded message is TRIM of the message, since PAD appends zero bytes only (R100). -/
theorem trim_pad8 (m : ByteSeq) : trim (pad8 m) = trim m := by
  obtain ⟨n, -, hpad⟩ := pad8_eq_append m
  rw [hpad, trim_append_zeros]

/-- Settles O48: what TRIM drops is the longest run of zero bytes at the end, and TRIM leaves its own result. -/
theorem trimRemovesTheZeroSuffix : Obligations.TrimRemovesTheZeroSuffix := by
  intro p
  have zeros : p.rtakeWhile (· == 0x00#8) = List.replicate (p.rtakeWhile (· == 0x00#8)).length 0x00#8 :=
    List.eq_replicate_of_mem fun b hb => eq_of_beq (List.mem_rtakeWhile_imp (p := (· == 0x00#8)) hb)
  refine ⟨⟨(p.rtakeWhile (· == 0x00#8)).length, ?_⟩, (trim_eq_self_iff _).mp (List.rdropWhile_idempotent _ p)⟩
  rw [← zeros]
  exact List.rdropWhile_append_rtakeWhile.symm

/-! ### The tags and ISENC -/

theorem isPrefixOf_iff_take (tag t : ByteSeq) :
    tag.isPrefixOf t = true ↔ tag.length ≤ t.length ∧ t.take tag.length = tag := by
  rw [List.isPrefixOf_iff_prefix]
  exact ⟨fun h => ⟨h.length_le, (List.prefix_iff_eq_take.mp h).symm⟩, fun ⟨_, h⟩ => List.prefix_iff_eq_take.mpr h.symm⟩

theorem isEncText_iff (t : ByteSeq) : isEncText t = true ↔
    (4 ≤ t.length ∧ t.take 4 = tagOk) ∨ (5 ≤ t.length ∧ t.take 5 = tagMcps) := by
  rw [isEncText, Bool.or_eq_true, isPrefixOf_iff_take, isPrefixOf_iff_take]
  rfl

/-- The text ENCRYPT returns is tagged, and DECRYPT strips that tag (R162, R164). -/
theorem isEncText_tagOk_append (e : ByteSeq) : isEncText (tagOk ++ e) = true := rfl

theorem stripTag_tagOk_append (e : ByteSeq) : stripTag (tagOk ++ e) = e := rfl

theorem withOperand_of_some {s : State} {o : Operand} {b : ByteSeq} (h : s.operand o = some b)
    (f : ByteSeq → Host.Outcome State Fault Refusal) : s.withOperand o f = f b := by
  simp [State.withOperand, h]

theorem withOperand_of_none {s : State} {o : Operand} (h : s.operand o = none)
    (f : ByteSeq → Host.Outcome State Fault Refusal) : s.withOperand o f = .refused .noPreviousOutput := by
  simp [State.withOperand, h]

/-- Settles O47: ISENC of bytes never waits; that of `@` is made on an idle block, from DOUT or not at all. -/
theorem isEncTestsTheTags : Obligations.IsEncTestsTheTags := by
  refine ⟨fun t => ⟨isEncText_iff t, fun s rest hq => step_of_host s _ rest hq (.inr rfl)⟩, fun s rest hq hb => ?_⟩
  rw [step_of_host s _ rest hq (.inl hb)]
  cases hp : s.prevOk with
  | true => exact withOperand_of_some (b := s.dout) (by simp [State.operand, hp]) _
  | false => exact withOperand_of_none (by simp [State.operand, hp]) _

/-! ### The round trip -/

theorem ecbeCmd_visible (c : Cipher) (key din : ByteSeq) : (ecbeCmd c key din).visible = (ecbeCmd c key din).out :=
  runInstr_visible c .ecbe key din

theorem encCmd_visible (din : ByteSeq) : (encCmd din).visible = (encCmd din).out :=
  runInstr_visible default .enc [] din

/-- Padding rounds the number of Blocks up (R100). -/
theorem pad8_length_div (m : ByteSeq) : (pad8 m).length / 8 = (m.length + 7) / 8 := by
  obtain ⟨n, hn, hpad⟩ := pad8_eq_append m
  have hmod := pad8_mod m
  have hlen : (pad8 m).length = m.length + n := by simp [hpad]
  omega

/-- Under an accepted key ENCRYPT is the tagged encoding of the ciphertext (R162). -/
theorem encryptPure_of_keyOk {c : Cipher} {key : ByteSeq} (hkey : c.keyOk key = true) (m : ByteSeq) :
    encryptPure c key m = .bytes (tagOk ++ (encCmd (ecbeCmd c key (pad8 m)).out).out) := by
  have code : (ecbeCmd c key (pad8 m)).code ≠ codeCipherKeyError := by
    rw [ecbeCmd, hkey, ecbCmd_code _ (pad8_mod m)]; decide
  rw [← encCmd_visible, ← ecbeCmd_visible]
  exact if_neg code

/-- Where both commands of DECRYPT complete OK, it is TRIM of ECBD's output (R164). -/
theorem decryptPure_of_ok {c : Cipher} {key t ct p : ByteSeq} (htag : isEncText t = true) (hdec : decCmd (stripTag t) = .ok ct)
    (hecb : ecbdCmd c key ct = .ok p) : decryptPure c key t = .bytes (trim p) := by
  simp only [decryptPure, htag, hdec, visible_ok, hecb]
  rfl

/-- Settles O51: DEC undoes ENC and ECBD undoes ECBE on the padded message, whose TRIM is that of the message. -/
theorem framingRoundTrip : Obligations.FramingRoundTrip := by
  intro c key m hinv hkey
  have hmod := pad8_mod m
  have cipherLength : (ecbeCmd c key (pad8 m)).out.length = (pad8 m).length := by
    rw [ecbeCmd, hkey, ecbCmd_out_length _ hmod]
  obtain ⟨encoded, decoded⟩ := decodeOfEncode _ (cipherLength ▸ hmod)
  obtain ⟨-, decrypted⟩ := ecbRoundTrip c key _ hinv hkey hmod
  refine ⟨⟨_, encryptPure_of_keyOk hkey m, ?_, ?_⟩, trim_eq_self_iff m⟩
  · have groups := encOutputGroupByGroup.1 _ (congrArg Result.code encoded)
    rw [List.length_append, groups, cipherLength, pad8_length_div]
    rfl
  · rw [decryptPure_of_ok (isEncText_tagOk_append _) decoded decrypted, trim_pad8]

/-! ### Runs of a framing operation

Each step of ENCRYPT and DECRYPT is the host's only pending move on an idle block. It answers, which ends the run, or it issues a
command whose COMPLETE leaves the next step in the same position. -/

/-- The block is idle and `m` is all the host has to do. -/
def State.IdleWith (s : State) (m : HostMove) : Prop := s.busy = false ∧ s.hostQ = [m]

/-- `n` steps from `s` end in a final state whose newest result is `r` where `ok` holds, and are refused over capacity where it does
not. -/
def State.Concludes (s : State) (n : Nat) (ok : Prop) (r : HostResult) : Prop :=
  (ok → ∃ t, steps n s = .next t ∧ t.Final ∧ t.results = r :: s.results) ∧ (¬ ok → steps n s = .refused .overCapacity)

/-- `s` after the host has issued `i` on these bytes and the block has completed it, with `follow` all the host has to do. -/
def State.afterCommand (s : State) (i : Instr) (key din : ByteSeq) (follow : HostMove) : State :=
  ((s.withQ [follow]).latch (encodeByte i) key din).complete (runInstr Config.cipher i key din)

theorem step_of_idleWith {s : State} {m : HostMove} (h : s.IdleWith m) : step s = hostStep m (s.withQ []) :=
  step_of_host s m [] h.2 (.inl h.1)

theorem afterCommand_idleWith (s : State) (i : Instr) (key din : ByteSeq) (follow : HostMove) :
    (s.afterCommand i key din follow).IdleWith follow := ⟨rfl, rfl⟩

/-- After a completion with CODE = 0 every operand denotes something, `@` the output (R72). -/
theorem afterCommand_operand (s : State) {i : Instr} {key din : ByteSeq} (follow : HostMove) (o : Operand)
    (h : (runInstr Config.cipher i key din).code = codeOk) :
    (s.afterCommand i key din follow).operand o = some (o.given (runInstr Config.cipher i key din).out) := by
  cases o with
  | bytes b => rfl
  | prev => exact (operand_prev_complete _ _).trans (if_pos h)

theorem issue_of_some {s : State} (cmd : Byte) {key din : Operand} {k d : ByteSeq} (hk : s.operand key = some k)
    (hd : s.operand din = some d) : s.issue cmd key din = s.issueBytes cmd k d := by
  simp [State.issue, hk, hd]

theorem issue_of_din_none {s : State} (cmd : Byte) (key : Operand) {din : Operand} (hd : s.operand din = none) :
    s.issue cmd key din = .refused .noPreviousOutput := by
  cases hk : s.operand key <;> simp [State.issue, hk, hd]

theorem run_encodeByte (c : Cipher) {i : Instr} (hi : i.wf = true) (key din : ByteSeq) :
    run c (encodeByte i) key din = runInstr c i key din := by
  rw [run, decodeByte_encodeByte hi]

/-- R33's check of an ISSUE of a well-formed command. -/
theorem capacityOk_encodeByte_iff {i : Instr} (hi : i.wf = true) (key din : ByteSeq) : capacityOk (encodeByte i) key din = true ↔
    fits key = true ∧ fits din = true ∧ fits (runInstr Config.cipher i key din).out = true := by
  rw [capacityOk_iff, run_encodeByte _ hi]

/-- A step that answers ends the run. -/
theorem concludes_of_answer {s : State} {m : HostMove} {r : HostResult} {ok : Prop} (h : s.IdleWith m) (hok : ok)
    (hm : hostStep m (s.withQ []) = .next ((s.withQ []).answer r)) (n : Nat) : s.Concludes (n + 1) ok r := by
  have final : ((s.withQ []).answer r).Final := ⟨h.1, rfl⟩
  have answered := (steps_of_next ((step_of_idleWith h).trans hm) n).trans (steps_of_final final n)
  exact ⟨fun _ => ⟨_, answered, final, rfl⟩, fun hn => absurd hok hn⟩

/-- A step that issues a command is refused over capacity, or two steps later the run goes on after that command's COMPLETE. -/
theorem concludes_of_issueThen {s : State} {m follow : HostMove} {i : Instr} {key din : Operand} {k d : ByteSeq} {n : Nat}
    {ok : Prop} {r : HostResult} (h : s.IdleWith m) (hi : i.wf = true) (hwaits : follow.waits = true)
    (hm : hostStep m (s.withQ []) = (s.withQ []).issueThen (encodeByte i) key din follow)
    (hk : s.operand key = some k) (hd : s.operand din = some d)
    (hfollow : (s.afterCommand i k d follow).Concludes n ok r) :
    s.Concludes (n + 2) (capacityOk (encodeByte i) k d = true ∧ ok) r := by
  have issued : step s = (s.withQ [follow]).issueBytes (encodeByte i) k d := by
    rw [step_of_idleWith h, hm]
    exact issue_of_some (s := s.withQ [follow]) _ ((operand_withQ ..).trans hk) ((operand_withQ ..).trans hd)
  have completed : step ((s.withQ [follow]).latch (encodeByte i) k d) = .next (s.afterCommand i k d follow) := by
    rw [State.afterCommand, ← run_encodeByte _ hi]
    exact step_of_issued (s.withQ []) _ k d follow hwaits
  obtain ⟨hcap, latched⟩ | ⟨hcap, refused⟩ := issueBytes_eq (s.withQ [follow]) (encodeByte i) k d
  · rw [State.Concludes, steps_of_next (issued.trans latched), steps_of_next completed, and_iff_right hcap]
    exact hfollow
  · exact ⟨fun hok => by simp [hcap] at hok, fun _ => steps_of_refused (issued.trans refused) _⟩

theorem State.Concludes.congr {s : State} {n : Nat} {ok ok' : Prop} {r : HostResult} (h : s.Concludes n ok r) (hok : ok ↔ ok') :
    s.Concludes n ok' r := propext hok ▸ h

theorem State.Concludes.ite {s : State} {n : Nat} {ok : Prop} {r : HostResult} [Decidable ok] (h : s.Concludes n ok r) :
    if ok then ∃ t, steps n s = .next t ∧ t.Final ∧ t.results = r :: s.results else steps n s = .refused .overCapacity := by
  obtain ⟨returns, refused⟩ := h
  split_ifs with hok
  · exact returns hok
  · exact refused hok

/-! ### ENCRYPT -/

/-- ENCRYPT from its third step on: the test of ECBE's code, then ENC and the tag (R162). -/
theorem encryptEnc_concludes {s : State} (h : s.IdleWith .encryptEnc) :
    s.Concludes 3 (s.code ≠ codeCipherKeyError → capacityOk (encodeByte .enc) [] s.dout = true)
      (if s.code = codeCipherKeyError then .cipherKeyError else .bytes (tagOk ++ (encCmd s.dout).visible)) := by
  by_cases hcode : s.code = codeCipherKeyError
  · rw [if_pos hcode]
    exact concludes_of_answer h (absurd hcode) (if_pos hcode) 2
  · rw [if_neg hcode]
    have tagged : (s.afterCommand .enc [] s.dout .encryptTag).Concludes 1 True (.bytes (tagOk ++ (encCmd s.dout).visible)) :=
      concludes_of_answer (afterCommand_idleWith ..) trivial rfl 0
    exact (concludes_of_issueThen h rfl rfl (if_neg hcode) rfl rfl tagged).congr (by simp [hcode])

/-- ENCRYPT from its second step on: ECBE on PAD's output (R162). -/
theorem encryptEcb_concludes {s : State} {key : Operand} {k : ByteSeq} (h : s.IdleWith (.encryptEcb key))
    (hk : s.operand key = some k) :
    s.Concludes 5
      (capacityOk (encodeByte .ecbe) k s.dout = true ∧
        ((ecbeCmd Config.cipher k s.dout).code ≠ codeCipherKeyError →
          capacityOk (encodeByte .enc) [] (ecbeCmd Config.cipher k s.dout).visible = true))
      (if (ecbeCmd Config.cipher k s.dout).code = codeCipherKeyError then .cipherKeyError
        else .bytes (tagOk ++ (encCmd (ecbeCmd Config.cipher k s.dout).visible).visible)) :=
  concludes_of_issueThen h rfl rfl rfl hk rfl (encryptEnc_concludes (afterCommand_idleWith ..))

theorem ecbCmd_code_eq_keyError_iff (keyOk : Bool) (f : Block → Block) {d : ByteSeq} (h : d.length % 8 = 0) :
    (ecbCmd keyOk f d).code = codeCipherKeyError ↔ keyOk = false := by
  cases keyOk with
  | false => simp [ecbCmd_of_keyOk_false f h]
  | true => rw [ecbCmd_code f h]; decide

/-- PAD fits where its output does, since that is no shorter than its input. -/
theorem pad_capacityOk_iff (d : ByteSeq) : capacityOk (encodeByte .pad) [] d = true ↔ fits (pad8 d) = true := by
  rw [capacityOk_encodeByte_iff rfl]
  exact ⟨fun ⟨_, _, hout⟩ => hout, fun hout => ⟨fits_nil, fits_of_le (length_le_pad8 d) hout, hout⟩⟩

/-- A command whose output is no longer than its input fits where its key and input do. -/
theorem capacityOk_iff_of_out_le {i : Instr} (hi : i.wf = true) {key d : ByteSeq}
    (hout : (runInstr Config.cipher i key d).out.length ≤ d.length) :
    capacityOk (encodeByte i) key d = true ↔ fits key = true ∧ fits d = true := by
  rw [capacityOk_encodeByte_iff hi, ← and_assoc]
  exact and_iff_left_of_imp fun ⟨_, hd⟩ => fits_of_le hout hd

/-- R33's checks of ENCRYPT's three commands come to those of the key, the padded message and the encoded ciphertext. -/
theorem encrypt_capacity_iff (k d : ByteSeq) :
    (capacityOk (encodeByte .pad) [] d = true ∧ capacityOk (encodeByte .ecbe) k (pad8 d) = true ∧
      ((ecbeCmd Config.cipher k (pad8 d)).code ≠ codeCipherKeyError →
        capacityOk (encodeByte .enc) [] (ecbeCmd Config.cipher k (pad8 d)).visible = true)) ↔
    fits k = true ∧ fits (pad8 d) = true ∧
      (Config.cipher.keyOk k = true → fits (encCmd (ecbeCmd Config.cipher k (pad8 d)).out).out = true) := by
  have accepted : (ecbeCmd Config.cipher k (pad8 d)).code ≠ codeCipherKeyError ↔ Config.cipher.keyOk k = true := by
    rw [ne_eq, ecbeCmd, ecbCmd_code_eq_keyError_iff _ _ (pad8_mod d), Bool.not_eq_false]
  have enc (hpad : fits (pad8 d) = true) : capacityOk (encodeByte .enc) [] (ecbeCmd Config.cipher k (pad8 d)).visible = true ↔
      fits (encCmd (ecbeCmd Config.cipher k (pad8 d)).out).out = true := by
    rw [ecbeCmd_visible, capacityOk_encodeByte_iff rfl, and_iff_right fits_nil]
    exact and_iff_right (fits_of_le (ecbCmd_out_length_le ..) hpad)
  rw [pad_capacityOk_iff, capacityOk_iff_of_out_le (i := .ecbe) rfl (ecbCmd_out_length_le ..), accepted]
  constructor
  · rintro ⟨hpad, ⟨hkey, -⟩, hout⟩
    exact ⟨hkey, hpad, fun h => (enc hpad).mp (hout h)⟩
  · rintro ⟨hkey, hpad, hout⟩
    exact ⟨hpad, ⟨hkey, hpad⟩, fun h => (enc hpad).mpr (hout h)⟩

/-- ENCRYPT of a message that denotes something is its pure composition, where the three commands fit (R162). -/
theorem encrypt_concludes {s : State} {key m : Operand} {d : ByteSeq} (h : s.IdleWith (.encrypt key m))
    (hd : s.operand m = some d) :
    s.Concludes 7
      (fits (key.given (pad8 d)) = true ∧ fits (pad8 d) = true ∧ (Config.cipher.keyOk (key.given (pad8 d)) = true →
        fits (encCmd (ecbeCmd Config.cipher (key.given (pad8 d)) (pad8 d)).out).out = true))
      (encryptPure Config.cipher (key.given (pad8 d)) d) :=
  have padded := afterCommand_idleWith s .pad [] d (.encryptEcb key)
  have keyed := afterCommand_operand s (.encryptEcb key) key (i := .pad) (key := []) (din := d) rfl
  (concludes_of_issueThen h rfl rfl rfl rfl hd (encryptEcb_concludes padded keyed)).congr (encrypt_capacity_iff _ d)

/-- Settles O49: PAD is refused without its operand, and the seven steps are the three commands, their COMPLETEs and the tag. -/
theorem encryptIsItsComposition : Obligations.EncryptIsItsComposition := by
  intro s key m hb hq
  have idle : s.IdleWith (.encrypt key m) := ⟨hb, hq⟩
  refine ⟨fun hm => (step_of_idleWith idle).trans ?_, fun d hd => (encrypt_concludes idle hd).ite⟩
  exact issue_of_din_none (s := s.withQ [.encryptEcb key]) _ _ ((operand_withQ ..).trans hm)

/-! ### DECRYPT -/

/-- DECRYPT's last step: the test of ECBD's code, and the trim (R164, R165). -/
theorem decryptTrim_concludes {s : State} (h : s.IdleWith .decryptTrim) :
    s.Concludes 1 True (if s.code = codeCipherKeyError then .cipherKeyError else .bytes (trim s.dout)) := by
  by_cases hcode : s.code = codeCipherKeyError
  · rw [if_pos hcode]
    exact concludes_of_answer h trivial (if_pos hcode) 0
  · rw [if_neg hcode]
    exact concludes_of_answer h trivial (if_neg hcode) 0

/-- DECRYPT from its second step on: the test of DEC's code, then ECBD (R164, R166). -/
theorem decryptEcb_concludes {s : State} {key : Operand} {k : ByteSeq} (h : s.IdleWith (.decryptEcb key))
    (hk : ¬(s.code = codeInvalidEncodingLength ∨ s.code = codeInvalidCharacter) → s.operand key = some k) :
    s.Concludes 3
      (¬(s.code = codeInvalidEncodingLength ∨ s.code = codeInvalidCharacter) → capacityOk (encodeByte .ecbd) k s.dout = true)
      (if s.code = codeInvalidEncodingLength ∨ s.code = codeInvalidCharacter then .malformedCiphertext
        else if (ecbdCmd Config.cipher k s.dout).code = codeCipherKeyError then .cipherKeyError
        else .bytes (trim (ecbdCmd Config.cipher k s.dout).visible)) := by
  by_cases hcode : s.code = codeInvalidEncodingLength ∨ s.code = codeInvalidCharacter
  · rw [if_pos hcode]
    exact concludes_of_answer h (absurd hcode) (if_pos hcode) 2
  · rw [if_neg hcode]
    have trimmed := decryptTrim_concludes (afterCommand_idleWith s .ecbd k s.dout .decryptTrim)
    exact (concludes_of_issueThen h rfl rfl (if_neg hcode) (hk hcode) rfl trimmed).congr (by simp [hcode])

theorem decCmd_out_length_le (d : ByteSeq) : (decCmd d).out.length ≤ d.length := by
  obtain ⟨o, h⟩ | h | ⟨p, h⟩ := decCmd_cases d
  · rw [decOutputBlockByBlock.1 d (by rw [h]; rfl)]; omega
  · simp [h]
  · simp [h]

/-- The host's test of CODE after DEC leaves code 0 (R166, R181). -/
theorem decCmd_code_ok_iff (d : ByteSeq) :
    ¬((decCmd d).code = codeInvalidEncodingLength ∨ (decCmd d).code = codeInvalidCharacter) ↔ (decCmd d).code = codeOk := by
  obtain ⟨o, h⟩ | h | ⟨p, h⟩ := decCmd_cases d <;> rw [h] <;> simp [codeOk, codeInvalidEncodingLength, codeInvalidCharacter]

theorem decCmd_visible (d : ByteSeq) : (decCmd d).visible = (decCmd d).out := runInstr_visible default .dec [] d

/-- R33's checks of DECRYPT's two commands come to those of the stripped text, and of the key where DEC completes OK. -/
theorem decrypt_capacity_iff (k d : ByteSeq) :
    (capacityOk (encodeByte .dec) [] d = true ∧
      (¬((decCmd d).code = codeInvalidEncodingLength ∨ (decCmd d).code = codeInvalidCharacter) →
        capacityOk (encodeByte .ecbd) k (decCmd d).visible = true)) ↔
    fits d = true ∧ ((decCmd d).code = codeOk → fits k = true) := by
  rw [capacityOk_iff_of_out_le (i := .dec) rfl (decCmd_out_length_le d), and_iff_right fits_nil, decCmd_code_ok_iff,
    decCmd_visible, capacityOk_iff_of_out_le (i := .ecbd) rfl (ecbCmd_out_length_le ..)]
  exact and_congr_right fun hd => imp_congr_right fun _ => and_iff_left (fits_of_le (decCmd_out_length_le d) hd)

/-- DECRYPT of a tagged text that denotes something is its pure composition, where the two commands fit (R164). -/
theorem decrypt_concludes {s : State} {key t : Operand} {d : ByteSeq} (h : s.IdleWith (.decrypt key t)) (hd : s.operand t = some d)
    (htag : isEncText d = true) :
    s.Concludes 5
      (fits (stripTag d) = true ∧
        ((decCmd (stripTag d)).code = codeOk → fits (key.given (decCmd (stripTag d)).out) = true))
      (decryptPure Config.cipher (key.given (decCmd (stripTag d)).out) d) := by
  have start : hostStep (.decrypt key t) (s.withQ []) =
      (s.withQ []).issueThen (encodeByte .dec) (.bytes []) (.bytes (stripTag d)) (.decryptEcb key) :=
    (withOperand_of_some hd _).trans (if_pos htag)
  have decoded := afterCommand_idleWith s .dec [] (stripTag d) (.decryptEcb key)
  have keyed (hcode : _) := afterCommand_operand s (.decryptEcb key) key (i := .dec) (key := []) (din := stripTag d)
    ((decCmd_code_ok_iff _).mp hcode)
  rw [decryptPure, if_pos htag]
  exact (concludes_of_issueThen h rfl rfl start rfl rfl (decryptEcb_concludes decoded keyed)).congr (decrypt_capacity_iff _ _)

/-- Settles O50: an untagged text is answered at once; a tagged one is DEC, ECBD, their COMPLETEs and the trim. -/
theorem decryptIsItsComposition : Obligations.DecryptIsItsComposition := by
  intro s key t hb hq
  have idle : s.IdleWith (.decrypt key t) := ⟨hb, hq⟩
  have started : step s = (s.withQ []).decryptStart key t := step_of_idleWith idle
  refine ⟨fun ht => started.trans (withOperand_of_none ht _), fun d hd =>
    ⟨fun htag => ?_, fun htag => (decrypt_concludes idle hd htag).ite⟩⟩
  have untagged : ¬ isEncText d = true := by simp [htag]
  exact ⟨started.trans ((withOperand_of_some hd _).trans (if_neg untagged)), fun _ => if_neg untagged⟩

end Sys2Proof.Machine
end

section
/-! PROOFS. The family 60_exceptions.md: what an error leaves in the registers, which command completes with which codes, and the
order in which causes are reported. -/

namespace Sys2Proof.Machine

/-! ### An error completion -/

/-- Settles O17: every outcome is an output at position 0, or an error without output. -/
theorem errorsLeaveNoOutput : Obligations.ErrorsLeaveNoOutput := by
  intro i s
  obtain ⟨out, h⟩ | ⟨e, p, h, -, -, hpos⟩ := runInstr_cases Config.cipher i s.keyL s.dinL
  · exact ⟨_, exec_of_ok h, rfl, fun hcode => absurd rfl hcode, fun _ => rfl⟩
  · exact ⟨_, exec_of_raise h, rfl, fun _ => rfl, fun hcode => congrArg errPosWord (hpos hcode)⟩

/-! ### The table of codes -/

/-- No command completes with a code its row does not hold (R181). -/
theorem runInstr_code_mem_allowedCodes (c : Cipher) (i : Instr) (key din : ByteSeq) :
    (runInstr c i key din).code ∈ allowedCodes i := by
  cases i with
  | pad | illegalCommand => exact List.mem_singleton_self _
  | encb => obtain ⟨o, h⟩ | h := encbCmd_cases din <;> simp [runInstr, h, allowedCodes]
  | enc => obtain ⟨o, h⟩ | h := encCmd_cases din <;> simp [runInstr, h, allowedCodes]
  | decb => obtain ⟨o, h⟩ | h | ⟨p, h⟩ := decbCmd_cases din <;> simp [runInstr, h, allowedCodes]
  | dec => obtain ⟨o, h⟩ | h | ⟨p, h⟩ := decCmd_cases din <;> simp [runInstr, h, allowedCodes]
  | ecbe => obtain ⟨o, h⟩ | h | h := ecbCmd_cases (c.keyOk key) (c.encBlk key) din <;> simp [runInstr, ecbeCmd, h, allowedCodes]
  | ecbd => obtain ⟨o, h⟩ | h | h := ecbCmd_cases (c.keyOk key) (c.decBlk key) din <;> simp [runInstr, ecbdCmd, h, allowedCodes]

/-- Some cipher, key and input make the command complete with the code. -/
def CompletesWith (i : Instr) (e : BitVec 4) : Prop := ∃ (c : Cipher) (key din : ByteSeq), (runInstr c i key din).code = e

/-- A cipher that gives every key the same answer and leaves every Block as it is. -/
def constCipher (accepts : Bool) : Cipher := ⟨fun _ => accepts, fun _ b => b, fun _ b => b⟩

/-- Every code of a command's row has an input it completes with, for ECBE and ECBD under a cipher that accepts or rejects (R181). -/
theorem completesWith_of_mem_allowedCodes (i : Instr) : ∀ e ∈ allowedCodes i, CompletesWith i e := by
  -- each input below is short, and its outcome evaluates to the code
  have under (accepts : Bool) (din : ByteSeq) : CompletesWith i (runInstr (constCipher accepts) i [] din).code :=
    ⟨_, _, din, rfl⟩
  cases i with
  | pad | illegalCommand => exact List.forall_mem_singleton.mpr (under true [])
  | encb => simpa [allowedCodes] using ⟨under true (List.replicate 8 0x00#8), under true []⟩
  | enc => simpa [allowedCodes] using ⟨under true [], under true [0x00#8]⟩
  | decb =>
    simpa [allowedCodes] using ⟨under true (List.replicate 12 0x2E#8), under true [], under true (List.replicate 12 0x00#8)⟩
  | dec => simpa [allowedCodes] using ⟨under true [], under true [0x00#8], under true (List.replicate 12 0x00#8)⟩
  | ecbe | ecbd => simpa [allowedCodes] using ⟨under true [], under true [0x00#8], under false []⟩

/-- Settles O18: a command completes with the codes of its row, and with each of them. -/
theorem codesOfEachCommand : Obligations.CodesOfEachCommand := by
  refine fun i e => ⟨?_, completesWith_of_mem_allowedCodes i e⟩
  rintro ⟨c, key, din, rfl⟩
  exact runInstr_code_mem_allowedCodes c i key din

/-! ### The order of the causes

One lemma per cause of R182: where it is the first that applies, it is the command's outcome. -/

theorem usesCipher_iff (i : Instr) : usesCipher i = true ↔ i = .ecbe ∨ i = .ecbd := by simp [usesCipher]

theorem decodesChars_iff (i : Instr) : decodesChars i = true ↔ i = .decb ∨ i = .dec := by simp [decodesChars]

/-- Every command with a length check opens with it: a failed one is the outcome, whatever the key and the characters. -/
theorem runInstr_of_lengthCause_some {i : Instr} {din : ByteSeq} {e : BitVec 4} (h : lengthCause i din = some e) (c : Cipher)
    (key : ByteSeq) : runInstr c i key din = .raise e 0 := by
  cases i with
  | pad | illegalCommand => cases h
  | encb | decb | enc | dec | ecbe | ecbd =>
    obtain ⟨hlen, ⟨⟩⟩ := Option.ite_none_left_eq_some.mp h
    exact if_pos hlen

/-- Past the length check a rejected key is the outcome of a command that uses the cipher. -/
theorem runInstr_of_keyOk_false {c : Cipher} {i : Instr} {key din : ByteSeq} (hlen : lengthCause i din = none)
    (hi : usesCipher i = true) (hkey : c.keyOk key = false) : runInstr c i key din = .raise codeCipherKeyError 0 := by
  obtain rfl | rfl := (usesCipher_iff i).mp hi
  all_goals
    have hmod : din.length % 8 = 0 := by simpa [lengthCause] using hlen
    simp [runInstr, ecbeCmd, ecbdCmd, hkey, ecbCmd_of_keyOk_false _ hmod]

/-- Past the length check the lowest byte outside the alphabet is the outcome of a command that decodes characters. -/
theorem runInstr_of_firstBad {i : Instr} {din : ByteSeq} {p : Nat} (hlen : lengthCause i din = none)
    (hi : decodesChars i = true) (hbad : firstBad din = some p) (c : Cipher) (key : ByteSeq) :
    runInstr c i key din = .raise codeInvalidCharacter p := by
  obtain rfl | rfl := (decodesChars_iff i).mp hi
  · exact decbCmd_of_firstBad (by simpa [lengthCause] using hlen) hbad
  · exact decCmd_of_firstBad (by simpa [lengthCause] using hlen) hbad

/-- A command to which no cause applies completes OK. -/
theorem runInstr_ok_of_no_cause {c : Cipher} {i : Instr} {key din : ByteSeq} (hi : ∀ b, i ≠ .illegalCommand b)
    (hlen : lengthCause i din = none) (hkey : usesCipher i = true → c.keyOk key = true)
    (hchar : decodesChars i = true → firstBad din = none) : ∃ out, runInstr c i key din = .ok out := by
  cases i with
  | pad => exact ⟨_, rfl⟩
  | encb => exact ⟨_, if_neg (not_not_intro (by simpa [lengthCause] using hlen))⟩
  | enc => exact ⟨_, encCmd_of_mod (by simpa [lengthCause] using hlen)⟩
  | decb => exact ⟨_, decbCmd_of_alpha (by simpa [lengthCause] using hlen) (firstBad_eq_none_iff.mp (hchar rfl))⟩
  | dec => exact ⟨_, decCmd_of_alpha (by simpa [lengthCause] using hlen) (firstBad_eq_none_iff.mp (hchar rfl))⟩
  | ecbe | ecbd =>
    have hmod : din.length % 8 = 0 := by simpa [lengthCause] using hlen
    simp [runInstr, ecbeCmd, ecbdCmd, hkey rfl, ecbCmd_of_keyOk _ hmod]
  | illegalCommand b => exact absurd rfl (hi b)

/-- RUN reports the first cause of R182. -/
theorem run_eq_firstCause (c : Cipher) (cmd : Byte) (key din : ByteSeq) :
    ((run c cmd key din).code, (run c cmd key din).pos) = firstCause c cmd key din := by
  rw [run]
  unfold firstCause
  split
  next hillegal =>
    rw [decodeByte_of_isIllegalByte cmd ((isIllegalByte_iff_fields cmd).mpr hillegal)]
    rfl
  next hlegal =>
    split
    next e hlen => rw [runInstr_of_lengthCause_some hlen]; rfl
    next hlen =>
      split
      next hkey => rw [runInstr_of_keyOk_false hlen hkey.1 hkey.2]; rfl
      next hkey =>
        have selects : ∀ b, decodeByte cmd ≠ .illegalCommand b := fun b hb =>
          hlegal ((isIllegalByte_iff_fields cmd).mp ((decodeByte_eq_illegalCommand_iff cmd b).mp hb).2)
        have accepted : usesCipher (decodeByte cmd) = true → c.keyOk key = true := by simpa using hkey
        have ok := runInstr_ok_of_no_cause selects hlen accepted
        split
        next p hdec hbad => rw [runInstr_of_firstBad hlen hdec hbad]; rfl
        next hdec hbad => obtain ⟨out, h⟩ := ok fun _ => hbad; rw [h]; rfl
        next hdec => obtain ⟨out, h⟩ := ok (by simp [hdec]); rw [h]; rfl

/-- DECRYPT of a tagged text that DEC does not complete OK ends before the key is tried (R164, R182). -/
theorem decryptPure_of_decCmd_error (c : Cipher) (key : ByteSeq) {t : ByteSeq} (htag : isEncText t = true)
    (hdec : (decCmd (stripTag t)).code ≠ codeOk) : decryptPure c key t = .malformedCiphertext := by
  rw [decryptPure, if_pos htag]
  exact if_pos (not_not.mp fun h => hdec ((decCmd_code_ok_iff _).mp h))

/-- Settles O19: RUN's causes one by one, and the codes of DEC in DECRYPT. -/
theorem firstCauseIsReported : Obligations.FirstCauseIsReported :=
  ⟨run_eq_firstCause, fun c key _ htag hdec => decryptPure_of_decCmd_error c key htag hdec⟩

end Sys2Proof.Machine
end

section
/-! PROOFS. The family 70_reset_and_hazards.md: reset, reads while busy, where a step faults, and how a command in flight ends. -/

namespace Sys2Proof.Machine

/-! ### Reset and the end of a run -/

/-- Settles O8: with nothing in flight and nothing pending, neither agent has a move. -/
theorem idleBlockStaysAsItIs : Obligations.IdleBlockStaysAsItIs :=
  ⟨fun s ⟨hidle, hq⟩ => step_of_idle s hidle hq, fun _ hb ⟨hidle, _⟩ => Bool.noConfusion (hidle.symm.trans hb)⟩

/-- Settles O38: reset does not wait for BUSY, and its next state is `State.resetBlock`. -/
theorem resetAtAnyTime : Obligations.ResetAtAnyTime := fun s =>
  have made : step s.assertReset = .next (s.assertReset.withQ s.hostQ).resetBlock :=
    step_of_host s.assertReset .reset s.hostQ rfl (.inr rfl)
  ⟨_, made, rfl, rfl, rfl, rfl, rfl, rfl, rfl, rfl, rfl⟩

/-! ### Reads while busy -/

theorem readErrPos_of_busy {s : State} (hb : s.busy = true) : s.readErrPos = .fault (.readWhileBusy .errPos) := if_pos hb

theorem readOutLen_of_busy {s : State} (hb : s.busy = true) : s.readOutLen = .fault (.readWhileBusy .outLen) := if_pos hb

theorem readDout_of_busy {s : State} (hb : s.busy = true) (i : Nat) : s.readDout i = .fault (.readWhileBusy .dout) := if_pos hb

/-- While BUSY = 1 a STATUS read shows bit 8 and the reserved bits of R26, whatever CODE it shows (R205). -/
theorem statusRead_of_busy {s : State} (hb : s.busy = true) : s.statusRead.extractLsb' 8 1 = 1#1 ∧
    s.statusRead.extractLsb' 9 23 = 0#23 ∧ s.statusRead.extractLsb' 4 4 = 0#4 := by
  have shown : s.statusRead = statusWord true (Config.busyCode s.freeCount) := if_pos hb
  obtain ⟨-, low, busy, high⟩ := statusWord_layout true (Config.busyCode s.freeCount)
  rw [shown]
  exact ⟨busy, high, low⟩

/-- Settles O41: no read waits for BUSY, so each is made, and faults or shows STATUS. -/
theorem readsWhileBusy : Obligations.ReadsWhileBusy := by
  intro s rest hb
  have made : ∀ {m : HostMove}, m.waits = false → s.hostQ = m :: rest → step s = hostStep m (s.withQ rest) :=
    fun hw hq => step_of_host s _ rest hq (.inr hw)
  have hb' : (s.withQ rest).busy = true := hb
  refine ⟨fun hq => ?_, fun hq => ?_, fun i hq => ?_, fun hq => ?_⟩
  · exact (made rfl hq).trans (readErrPos_of_busy hb')
  · exact (made rfl hq).trans (readOutLen_of_busy hb')
  · exact (made rfl hq).trans (readDout_of_busy hb' i)
  · obtain ⟨busy, high, low⟩ := statusRead_of_busy hb'
    exact ⟨_, _, made rfl hq, rfl, busy, high, low, hb⟩

/-! ### Faults -/

/-- An ISSUE latches or is refused. -/
theorem issue_ne_fault {s : State} {cmd : Byte} {key din : Operand} {r : Fault} : s.issue cmd key din ≠ .fault r := by
  obtain ⟨he, -⟩ | ⟨he, -⟩ := issue_eq s cmd key din
  · obtain ⟨-, hb⟩ | ⟨-, hb⟩ := issueBytes_eq s cmd (key.given s.dout) (din.given s.dout) <;> simp [he, hb]
  · simp [he]

theorem withOperand_ne_fault {s : State} {o : Operand} {f : ByteSeq → Host.Outcome State Fault Refusal} {r : Fault}
    (h : ∀ b, f b ≠ .fault r) : s.withOperand o f ≠ .fault r := by
  obtain ⟨he, -⟩ | ⟨he, -⟩ := withOperand_eq s o f
  · exact he ▸ h _
  · simp [he]

/-- Only a read of a result register can fault. -/
theorem hostStep_ne_fault {m : HostMove} (hm : m.readsResult = false) (s : State) (r : Fault) : hostStep m s ≠ .fault r := by
  cases m with
  | readErrPos | readOutLen | readDout => cases hm
  | waitIdle | readStatus | reset | encryptTag => nofun
  | issue | encrypt | encryptEcb => exact issue_ne_fault
  | encryptEnc | decryptEcb => exact iteInduction (motive := (· ≠ _)) (fun _ => nofun) fun _ => issue_ne_fault
  | decryptTrim => exact iteInduction (motive := (· ≠ _)) (fun _ => nofun) fun _ => nofun
  | decrypt =>
    exact withOperand_ne_fault fun _ => iteInduction (motive := (· ≠ _)) (fun _ => issue_ne_fault) fun _ => nofun
  | isEnc => exact withOperand_ne_fault fun _ => nofun

theorem readErrPos_faults_iff (s : State) : (∃ r, s.readErrPos = .fault r) ↔ ¬ s.busy = false := by
  cases hb : s.busy with
  | false => simp [readErrPos_of_idle hb]
  | true => simp [readErrPos_of_busy hb]

theorem readOutLen_faults_iff (s : State) : (∃ r, s.readOutLen = .fault r) ↔ ¬ s.busy = false := by
  cases hb : s.busy with
  | false => simp [readOutLen_of_idle hb]
  | true => simp [readOutLen_of_busy hb]

theorem readDout_faults_iff (s : State) (i : Nat) :
    (∃ r, s.readDout i = .fault r) ↔ ¬ (s.busy = false ∧ i < s.dout.length) := by
  cases hb : s.busy with
  | false =>
    obtain h | h := Nat.lt_or_ge i s.dout.length
    · simp [readDout_of_lt hb h, h]
    · simp [readDout_of_ge hb h, h]
  | true => simp [readDout_of_busy hb]

/-- No duty binds a host whose next move, if it has one, reads no result register. -/
theorem dutiful_of_head {s : State} (h : ∀ m ∈ s.hostQ.head?, m.readsResult = false) : s.dutiful := by
  unfold State.dutiful
  split
  case h_4 => trivial
  all_goals next hq => simp [hq, HostMove.readsResult] at h

theorem waits_of_readsResult {m : HostMove} (h : m.readsResult = true) : m.waits = false := by
  cases m with
  | readErrPos | readOutLen | readDout => rfl
  | _ => cases h

/-- The host's duties concern reads of results, which do not wait: a host that waits keeps them. -/
theorem dutiful_of_hostWaits {s : State} (hw : s.hostWaits = true) : s.dutiful := by
  refine dutiful_of_head fun m hm => Bool.eq_false_iff.mpr fun hr => ?_
  obtain ⟨rest, hq⟩ := List.head?_eq_some_iff.mp hm
  simp [State.hostWaits, hq, waits_of_readsResult hr] at hw

/-- The host's next move faults exactly where it breaks a duty (R28, R205). -/
theorem hostStep_faults_iff {s : State} {m : HostMove} {rest : List HostMove} (hq : s.hostQ = m :: rest) :
    (∃ r, hostStep m (s.withQ rest) = .fault r) ↔ ¬ s.dutiful := by
  cases m with
  | readErrPos => exact (readErrPos_faults_iff (s.withQ rest)).trans (by simp [State.dutiful, hq])
  | readOutLen => exact (readOutLen_faults_iff (s.withQ rest)).trans (by simp [State.dutiful, hq])
  | readDout i => exact (readDout_faults_iff (s.withQ rest) i).trans (by simp [State.dutiful, hq])
  | _ =>
    have kept : s.dutiful := dutiful_of_head (by simp [hq, HostMove.readsResult])
    exact iff_of_false (fun ⟨r, h⟩ => hostStep_ne_fault rfl _ r h) (not_not_intro kept)

/-- Settles O43: a COMPLETE and an idle step answer a next state, and bind the host to nothing. -/
theorem faultsOnlyOnBrokenDuties : Obligations.FaultsOnlyOnBrokenDuties := by
  intro s
  obtain ⟨-, hw, hs⟩ | ⟨-, hq, hs⟩ | ⟨m, rest, hq, -, hs⟩ := step_kinds s
  · exact iff_of_false (by simp [hs, exec_eq]) (not_not_intro (dutiful_of_hostWaits hw))
  · exact iff_of_false (by simp [hs]) (not_not_intro (dutiful_of_head (by simp [hq])))
  · rw [hs]
    exact hostStep_faults_iff hq

/-! ### How a command in flight ends -/

/-- A move the host makes without waiting issues nothing: where it answers a next state it notes a read, answers a framing operation
or resets the block. -/
theorem hostStep_next_of_not_waits {m : HostMove} {s t : State} (hw : m.waits = false) (h : hostStep m s = .next t) :
    (∃ r, t = s.note r ∨ t = (s.note r).useFree) ∨ (∃ r, t = s.answer r) ∨ t = s.resetBlock := by
  cases m with
  | readStatus => exact .inl (read_next (.inl rfl) h)
  | readErrPos | readOutLen | readDout => exact .inl (read_next (.inr rfl) h)
  | reset => cases h; exact .inr (.inr rfl)
  | decrypt key text =>
    cases text with
    | bytes b =>
      have untagged : ¬ isEncText b = true := Bool.eq_false_iff.mp hw
      cases (if_neg untagged).symm.trans h
      exact .inr (.inl ⟨_, rfl⟩)
    | prev => cases hw
  | isEnc text =>
    cases text with
    | bytes b => cases h; exact .inr (.inl ⟨_, rfl⟩)
    | prev => cases hw
  | _ => cases hw

/-- A step while BUSY = 1 ends the command, or takes one move off the host's queue and leaves BUSY and the latches. -/
theorem step_next_of_busy {s t : State} (hb : s.busy = true) (h : step s = .next t) :
    t.busy = false ∨
      (t.busy = true ∧ t.cmdL = s.cmdL ∧ t.keyL = s.keyL ∧ t.dinL = s.dinL ∧ ∃ m, s.hostQ = m :: t.hostQ) := by
  obtain ⟨-, hw, -⟩ | ⟨hidle, -, -⟩ | ⟨m, rest, hq, hmade, hs⟩ := step_kinds s
  · cases (step_completes_run s hb hw).symm.trans h
    exact .inl rfl
  · exact Bool.noConfusion (hidle.symm.trans hb)
  · have hw : m.waits = false := hmade.resolve_left (by simp [hb])
    obtain ⟨r, rfl | rfl⟩ | ⟨r, rfl⟩ | rfl := hostStep_next_of_not_waits hw (hs.symm.trans h)
    case inr.inr => exact .inl rfl
    all_goals exact .inr ⟨hb, rfl, rfl, rfl, m, hq⟩

/-- While BUSY = 1 a step that breaks no duty answers a next state: the host is refused nothing then. -/
theorem exists_step_next_of_busy {s : State} (hb : s.busy = true) (hd : s.dutiful) : ∃ t, step s = .next t := by
  cases h : step s with
  | next t => exact ⟨t, rfl⟩
  | fault r => exact absurd hd ((faultsOnlyOnBrokenDuties s).mp ⟨r, h⟩)
  | refused r =>
    obtain ⟨hidle, -⟩ := refusalsOnlyAtCommandsAndPrevOperands s r h
    exact Bool.noConfusion (hidle.symm.trans hb)

/-- A host that reads no result while BUSY = 1 lets the command end: each step on the way takes one of its moves. -/
theorem exists_steps_idle {s : State} (hb : s.busy = true) (hr : ∀ m ∈ s.hostQ, m.readsResult = false) :
    ∃ n t, n ≤ s.hostQ.length + 1 ∧ steps n s = .next t ∧ t.busy = false := by
  obtain ⟨t, ht⟩ := exists_step_next_of_busy hb (dutiful_of_head fun m hm => hr m (List.mem_of_mem_head? hm))
  obtain hidle | ⟨hbt, -, -, -, m, hq⟩ := step_next_of_busy hb ht
  · exact ⟨1, t, by omega, steps_of_next ht 0, hidle⟩
  · rw [hq] at hr ⊢
    obtain ⟨n, u, hn, hu, hidle⟩ := exists_steps_idle hbt (List.forall_mem_of_forall_mem_cons hr)
    exact ⟨n + 1, u, Nat.succ_le_succ hn, (steps_of_next ht n).trans hu, hidle⟩
termination_by s.hostQ.length
decreasing_by simp [hq]

/-- Settles O7: a step that leaves the command in flight takes a move off a finite queue. -/
theorem everyCommandEnds : Obligations.EveryCommandEnds := by
  refine ⟨fun s t hb h => ?_, fun s => exists_steps_idle⟩
  obtain hidle | ⟨hbt, hcmd, hkey, hdin, m, hq⟩ := step_next_of_busy hb h
  · exact .inl hidle
  · exact .inr ⟨hbt, hcmd, hkey, hdin, by simp [hq]⟩

end Sys2Proof.Machine
end
